-- ==== Sys2Proof/Word.lean ====
section
/-! DEFINITION. The word types of the command port (spec/00_scope.md R9): a byte, and the 16-bit word of a byte pair. -/

namespace Sys2Proof

/-- R9: a byte is 8 bits. -/
abbrev Byte := BitVec 8

/-- R8 `WORD_BITS`: a payload word is 16 bits. -/
abbrev Word := BitVec 16

end Sys2Proof
end

