-- ==== Sys2Proof/Syntax.lean ====
section
/-! DEFINITION. The operations of SCE-v1 as syntax (spec/30_encoding.md R70, opcode_table.json): one constructor a row,
with the payload bytes of R71 as its operands. -/

namespace Sys2Proof

/-- An operation. The operands are the payload bytes `p[0]`, `p[1]`, … in payload order (R71); an `RD` row of
the table has its register index in its name (R34). -/
inductive Instr where
  /-- `LDRAWP msb, lsb` (R106). -/
  | ldrawp (msb lsb : Byte)
  /-- `LDRAWT msb, lsb` (R108). -/
  | ldrawt (msb lsb : Byte)
  /-- `LDCOEF b0, …, b7` (R104). -/
  | ldcoef (p0 p1 p2 p3 p4 p5 p6 p7 : Byte)
  /-- `COMPP` (R124). -/
  | compp
  /-- `COMPT` (R130). -/
  | compt
  /-- `INVCOEF` (R150). -/
  | invcoef
  /-- `RD STATUS` (R152, r = 0). -/
  | rdStatus
  /-- `RD A0` (R152, r = 1). -/
  | rdA0
  /-- `RD B1` (R152, r = 2). -/
  | rdB1
  /-- `RD B2` (R152, r = 3). -/
  | rdB2
  /-- `RD C12` (R152, r = 4). -/
  | rdC12
  /-- `RD RAW_P` (R152, r = 5). -/
  | rdRawP
  /-- `RD RAW_T` (R152, r = 6). -/
  | rdRawT
  /-- `RD PCOMP` (R152, r = 7). -/
  | rdPcomp
  /-- `RD PRES_OUT` (R152, r = 8). -/
  | rdPresOut
  /-- `RD TEMP_OUT` (R152, r = 9). -/
  | rdTempOut
  deriving DecidableEq, Repr

end Sys2Proof
end

