-- ==== Sys2Proof/WellFormed.lean ====
section
/-! DEFINITION. Frames and their well-formedness (spec/20_memory.md R51, spec/30_encoding.md R72, R75).
An `Instr` carries exactly the payload bytes its row has, so every term of `Instr` is well formed (log entry 11); what can
be ill formed is a frame, in the two ways of R74, and these are the two checks. -/

namespace Sys2Proof

/-- R51: a frame is an opcode byte and a finite list of payload bytes, delivered together. -/
structure Frame where
  op : Byte
  payload : List Byte
  deriving DecidableEq, Repr

/-- R74: why a frame is not an operation, with the `info` of its `raise`. -/
inductive Reject where
  /-- `raise ILLEGAL_OP(op)`: the opcode is reserved (R75). -/
  | illegalOp (op : Byte)
  /-- `raise FRAME(op, n)`: the opcode is legal and `n` is not its payload length (R72). -/
  | frame (op : Byte) (n : Nat)
  deriving DecidableEq, Repr

namespace Frame

/-- The bytes of a frame in order: the opcode byte, then the payload (R71). -/
def bytes (f : Frame) : List Byte :=
  f.op :: f.payload

/-- A frame from its bytes in order (R71); no bytes are no frame. -/
def ofBytes : List Byte → Option Frame
  | [] => none
  | op :: p => some ⟨op, p⟩

/-- R70: the 16 opcodes that are not reserved. -/
def legalOp (op : Byte) : Bool :=
  op == 0x00#8 || op == 0x02#8 || op == 0x04#8 || op == 0x10#8 || op == 0x11#8 || op == 0x20#8 ||
    (0x30#8 ≤ op && op ≤ 0x39#8)

/-- R72: the payload length of a legal opcode. -/
def payloadBytes (op : Byte) : Nat :=
  if op = 0x04#8 then 8 else if op = 0x00#8 ∨ op = 0x02#8 then 2 else 0

/-- A frame is well formed when its opcode is legal and its payload has that opcode's length. -/
def wellFormed (f : Frame) : Bool :=
  legalOp f.op && f.payload.length == payloadBytes f.op

end Frame

end Sys2Proof
end

