-- ==== Sys2Proof/Decode.lean ====
section
/-! DEFINITION. The decoder of spec/30_encoding.md R74, total on every frame, and the encoder of R70 and R71. -/

namespace Sys2Proof

/-- A format Z or R frame (R71): no payload bytes. -/
def decodeZ (op : Byte) (i : Instr) : List Byte → Except Reject Instr
  | [] => .ok i
  | p => .error (.frame op p.length)

/-- A format L2 frame (R71): two payload bytes, most significant first. -/
def decodeL2 (op : Byte) (k : Byte → Byte → Instr) : List Byte → Except Reject Instr
  | [m, l] => .ok (k m l)
  | p => .error (.frame op p.length)

/-- A format L8 frame (R71): eight payload bytes. -/
def decodeL8 (op : Byte) (k : Byte → Byte → Byte → Byte → Byte → Byte → Byte → Byte → Instr) :
    List Byte → Except Reject Instr
  | [p0, p1, p2, p3, p4, p5, p6, p7] => .ok (k p0 p1 p2 p3 p4 p5 p6 p7)
  | p => .error (.frame op p.length)

/-- The RD row of a register index (R34, R70): 0 to 9, none for the reserved indices 10 to 15. -/
def rdOfIndex (r : BitVec 4) : Option Instr :=
  match r.toNat with
  | 0 => some .rdStatus
  | 1 => some .rdA0
  | 2 => some .rdB1
  | 3 => some .rdB2
  | 4 => some .rdC12
  | 5 => some .rdRawP
  | 6 => some .rdRawT
  | 7 => some .rdPcomp
  | 8 => some .rdPresOut
  | 9 => some .rdTempOut
  | _ => none

/-- R74's decode of the opcodes `0011 rrrr`: an RD of register `op[3:0]`, or reserved. -/
def decodeRd (op : Byte) (p : List Byte) : Except Reject Instr :=
  match rdOfIndex (op.setWidth 4) with
  | some i => decodeZ op i p
  | none => .error (.illegalOp op)

/-- R74: the opcode first (ILLEGAL_OP), then the payload length (FRAME), then the operation. -/
def decode (f : Frame) : Except Reject Instr :=
  match f.op.toNat with
  | 0x00 => decodeL2 f.op .ldrawp f.payload
  | 0x02 => decodeL2 f.op .ldrawt f.payload
  | 0x04 => decodeL8 f.op .ldcoef f.payload
  | 0x10 => decodeZ f.op .compp f.payload
  | 0x11 => decodeZ f.op .compt f.payload
  | 0x20 => decodeZ f.op .invcoef f.payload
  | _ =>
    if f.op.extractLsb' 4 4 = 0x3#4 then decodeRd f.op f.payload
    else .error (.illegalOp f.op)

/-- The frame of an operation (R70 opcodes, R71 payload layouts). -/
def encode : Instr → Frame
  | .ldrawp m l => ⟨0x00#8, [m, l]⟩
  | .ldrawt m l => ⟨0x02#8, [m, l]⟩
  | .ldcoef p0 p1 p2 p3 p4 p5 p6 p7 => ⟨0x04#8, [p0, p1, p2, p3, p4, p5, p6, p7]⟩
  | .compp => ⟨0x10#8, []⟩
  | .compt => ⟨0x11#8, []⟩
  | .invcoef => ⟨0x20#8, []⟩
  | .rdStatus => ⟨0x30#8, []⟩
  | .rdA0 => ⟨0x31#8, []⟩
  | .rdB1 => ⟨0x32#8, []⟩
  | .rdB2 => ⟨0x33#8, []⟩
  | .rdC12 => ⟨0x34#8, []⟩
  | .rdRawP => ⟨0x35#8, []⟩
  | .rdRawT => ⟨0x36#8, []⟩
  | .rdPcomp => ⟨0x37#8, []⟩
  | .rdPresOut => ⟨0x38#8, []⟩
  | .rdTempOut => ⟨0x39#8, []⟩

/-- Decoding a frame given as its bytes (R71): no bytes are no frame and no operation. -/
def decodeBytes (bs : List Byte) : Option (Except Reject Instr) :=
  (Frame.ofBytes bs).map decode

/-- R77: the payload length a decoder learns from the opcode byte; a reserved opcode has none, read here as 0. -/
def payloadNeed (op : Byte) : Nat :=
  match op.toNat with
  | 0x00 => 2
  | 0x02 => 2
  | 0x04 => 8
  | _ => 0

/-- Byte `k` of a number whose bit 0 is the least significant bit of byte 0. -/
def byteOfWord (w k : Nat) : Byte :=
  BitVec.ofNat 8 (w / 2 ^ (8 * k))

/-- The frame whose first byte is bits 7..0 of `w`, its second byte bits 15..8, and so on, bits from `nbits` on read
as 0; its length is the opcode's (R72), or all of `nbits` where that is longer (log entry 4). -/
def frameOfWord (nbits w : Nat) : Frame :=
  let v := w % 2 ^ nbits
  let op := byteOfWord v 0
  ⟨op, (List.range (max (payloadNeed op) (nbits / 8 - 1))).map fun k => byteOfWord v (k + 1)⟩

/-- The operation the decoder reads from an opcode-table word, operand bytes above `nbits` zero. -/
def decodeTableWord (nbits w : Nat) : Option Instr :=
  (decode (frameOfWord nbits w)).toOption

end Sys2Proof
end

