-- ==== Sys2Proof/Config.lean ====
section
/-! DEFINITION. The implementation parameters of spec/00_scope.md R8 and the values the spec leaves open. -/

namespace Sys2Proof

/-- `NEG_OFFSET` (R8, D1, I8): what the Signed Register Decoder subtracts from a word with bit 15 set.
The spec names exactly these two values. -/
inductive NegOffset where
  /-- The default: 65535, the source's algorithm (90_conflicts.md C1). -/
  | off65535
  /-- The named alternative: 65536, two's complement. -/
  | off65536
  deriving DecidableEq, Repr

/-- The number a `NegOffset` names. -/
def NegOffset.value : NegOffset → Int
  | .off65535 => 65535
  | .off65536 => 65536

/-- `OUT_ARITH` (R8, D7, I7): the arithmetic of the output stages. -/
inductive OutArith where
  /-- The default: IEEE 754 binary64, round to nearest, ties to even (R123, R125). -/
  | binary64
  /-- The named alternative of R128: an opaque total function of (mac, Tr). -/
  | opaqueFunction
  deriving DecidableEq, Repr

/-- The two parameters of R8 that carry a named alternative (log entry 3). -/
structure Params where
  negOffset : NegOffset
  outArith : OutArith
  deriving DecidableEq, Repr

/-- The parameter values of SCE-v1 itself (R8). -/
def Params.sceV1 : Params where
  negOffset := .off65535
  outArith := .binary64

namespace Config

/-! Constants of R8 fixed by the source. -/

/-- `RAW_SHIFT`: a raw count is the payload word shifted right by 6. -/
def rawShift : Nat := 6
/-- `A0_FRAC`: the coefficient a0 is its code times 2^-3. -/
def a0Frac : Nat := 3
/-- `B1_FRAC`: the coefficient b1 is its code times 2^-13. -/
def b1Frac : Nat := 13
/-- `B2_FRAC`: the coefficient b2 is its code times 2^-14. -/
def b2Frac : Nat := 14
/-- `C12_SHIFT`: the decoded c12 word is shifted right arithmetically by 2. -/
def c12Shift : Nat := 2
/-- `C12_FRAC`: the coefficient c12 is its code times 2^-22. -/
def c12Frac : Nat := 22
/-- The fraction bits of `PCOMP` (R29): the compensated value is the code times 2^-22. -/
def pcompFrac : Nat := 22
/-- `T_CONV_MS` (D18): the least wait after a conversion trigger, a premise about the host. -/
def tConvMs : Nat := 3
/-- `T_WAKE_MS` (D18): the least wait after the sensor wakes, a premise about the host. -/
def tWakeMs : Nat := 5
/-- `DEVICE_ADDR`: the sensor's bus address, in the host's space (R50). -/
def deviceAddr : Byte := 0x60#8

/-! Open values. They have no body: nothing can be proved of them but that they are functions. -/

/-- The pressure output under `OutArith.opaqueFunction`: some total function of (mac, Tr) (R128, log entry 5). -/
opaque opaquePressure : Int → Nat → BitVec 64

/-- The temperature output under `OutArith.opaqueFunction`: some total function of Tr (R128, log entry 5). -/
opaque opaqueTemperature : Nat → BitVec 64

/-- The 64-bit pattern of a NaN: R129 says none ever arises and gives none a pattern (log entry 7). -/
opaque nanBits : BitVec 64

end Config

end Sys2Proof
end

