-- ==== Sys2Proof/Machine/Float.lean ====
section
/-! DEFINITION. IEEE 754 binary64 with rounding to nearest, ties to even (spec/00_scope.md R11, spec/41_compute_ops.md R129;
93_implementation_defined.md G1; log entry 7): exact rational results, rounded once. -/

namespace Sys2Proof.Machine

/-- R11: the set `F64`. `fin neg m e` is `(-1)^neg * m * 2^e`; in canonical form `m < 2^53`, `-1074 ≤ e ≤ 971`, and
`m ≥ 2^52` unless `e = -1074` (`F64.canonical`). R129: no operand or result of the engine is infinite or a NaN. -/
inductive F64 where
  | fin (neg : Bool) (mant : Nat) (exp : Int)
  | inf (neg : Bool)
  | nan
  deriving DecidableEq, Repr

/-- The form in which each finite binary64 value is written once. -/
def F64.canonical : F64 → Bool
  | .fin _ m e => decide (m < 2 ^ 53 ∧ -1074 ≤ e ∧ e ≤ 971 ∧ (2 ^ 52 ≤ m ∨ e = -1074))
  | .inf _ => true
  | .nan => true

/-- A finite value: neither infinite nor a NaN. -/
def F64.isFinite : F64 → Bool
  | .fin _ _ _ => true
  | _ => false

/-- The exact value of a finite F64 as a multiple of 2^-1074, the smallest positive binary64 number; every finite
value in canonical form is one. 0 for the values that are not finite. -/
def F64.units : F64 → Int
  | .fin neg m e => (if neg then -1 else 1) * ((m * 2 ^ (e + 1074).toNat : Nat) : Int)
  | _ => 0

/-- The sign bit's value. -/
def signBits (neg : Bool) : Nat :=
  if neg then 2 ^ 63 else 0

/-- R11 `bits64`: the 64-bit pattern, sign first, then 11 exponent bits, then 52 fraction bits. -/
def F64.bits : F64 → BitVec 64
  | .fin neg m e =>
    BitVec.ofNat 64
      (signBits neg + if m < 2 ^ 52 then m else (e + 1075).toNat * 2 ^ 52 + (m - 2 ^ 52))
  | .inf neg => BitVec.ofNat 64 (signBits neg + 2047 * 2 ^ 52)
  | .nan => Config.nanBits

/-- The F64 value of a 64-bit pattern. -/
def F64.ofBits (b : BitVec 64) : F64 :=
  let neg := b.getLsbD 63
  let x : Nat := b.toNat / 2 ^ 52 % 2 ^ 11
  let f : Nat := b.toNat % 2 ^ 52
  if x = 2047 then (if f = 0 then .inf neg else .nan)
  else if x = 0 then .fin neg f (-1074)
  else .fin neg (2 ^ 52 + f) ((x : Int) - 1075)

/-- `n / d` rounded to the nearest integer, ties to even. -/
def divNearestEven (n d : Nat) : Nat :=
  let q := n / d
  let r := n % d
  if 2 * r < d then q
  else if d < 2 * r then q + 1
  else if q % 2 = 0 then q else q + 1

/-- `floor (log2 (n / d))` of positive `n` and `d`. -/
def floorLog2 (n d : Nat) : Int :=
  let k : Int := (Nat.log2 n : Int) - (Nat.log2 d : Int)
  if d * 2 ^ k.toNat ≤ n * 2 ^ (-k).toNat then k else k - 1

/-- A rounded mantissa with its exponent, in canonical form; a magnitude of 2^1024 or more is an infinity. -/
def packF64 (neg : Bool) (m : Nat) (e : Int) : F64 :=
  let m' := if m = 2 ^ 53 then 2 ^ 52 else m
  let e' := if m = 2 ^ 53 then e + 1 else e
  if e' ≤ 971 then .fin neg m' e' else .inf neg

/-- `± (n / d)` of naturals with `d > 0`, rounded to nearest, ties to even; a zero keeps the sign. -/
def roundRatio (neg : Bool) (n d : Nat) : F64 :=
  if n = 0 then .fin neg 0 (-1074)
  else
    let e : Int := max (floorLog2 n d - 52) (-1074)
    packF64 neg (divNearestEven (n * 2 ^ (-e).toNat) (d * 2 ^ e.toNat)) e

/-- `± (n / d) * 2^e`, rounded to nearest, ties to even. -/
def roundScaled (neg : Bool) (n d : Nat) (e : Int) : F64 :=
  roundRatio neg (n * 2 ^ e.toNat) (d * 2 ^ (-e).toNat)

/-- R11 `f64`: the F64 value of `v * 2^-k`. Every use is of an exactly representable value, so it never rounds; a zero is
`+0.0`. -/
def f64 (v : Int) (k : Nat) : F64 :=
  roundScaled (decide (v < 0)) v.natAbs 1 (-(k : Int))

/-- The negation of an F64 value: the sign bit inverted. -/
def fneg64 : F64 → F64
  | .fin neg m e => .fin (!neg) m e
  | .inf neg => .inf (!neg)
  | .nan => .nan

/-- R11: the binary64 multiplication. -/
def fmul64 : F64 → F64 → F64
  | .fin n1 m1 e1, .fin n2 m2 e2 => roundScaled (n1 ^^ n2) (m1 * m2) 1 (e1 + e2)
  | .inf n1, .fin n2 m2 _ => if m2 = 0 then .nan else .inf (n1 ^^ n2)
  | .fin n1 m1 _, .inf n2 => if m1 = 0 then .nan else .inf (n1 ^^ n2)
  | .inf n1, .inf n2 => .inf (n1 ^^ n2)
  | .nan, _ => .nan
  | _, .nan => .nan

/-- R11: the binary64 division. -/
def fdiv64 : F64 → F64 → F64
  | .fin n1 m1 e1, .fin n2 m2 e2 =>
    if m2 = 0 then (if m1 = 0 then .nan else .inf (n1 ^^ n2))
    else roundScaled (n1 ^^ n2) m1 m2 (e1 - e2)
  | .inf n1, .fin n2 _ _ => .inf (n1 ^^ n2)
  | .fin n1 _ _, .inf n2 => .fin (n1 ^^ n2) 0 (-1074)
  | .inf _, .inf _ => .nan
  | .nan, _ => .nan
  | _, .nan => .nan

/-- The exact sum of two finite values as an integer multiple of `2^e`, `e` the smaller of the two exponents. -/
def sumCode (n1 : Bool) (m1 : Nat) (e1 : Int) (n2 : Bool) (m2 : Nat) (e2 : Int) : Int :=
  let e := min e1 e2
  (if n1 then -1 else 1) * ((m1 * 2 ^ (e1 - e).toNat : Nat) : Int) +
    (if n2 then -1 else 1) * ((m2 * 2 ^ (e2 - e).toNat : Nat) : Int)

/-- R11: the binary64 addition. An exact zero sum is `+0.0` unless both addends are negative zeros (R123, R129). -/
def fadd64 : F64 → F64 → F64
  | .fin n1 m1 e1, .fin n2 m2 e2 =>
    let v := sumCode n1 m1 e1 n2 m2 e2
    if v = 0 then .fin (n1 && n2) 0 (-1074)
    else roundScaled (decide (v < 0)) v.natAbs 1 (min e1 e2)
  | .inf n1, .fin _ _ _ => .inf n1
  | .fin _ _ _, .inf n2 => .inf n2
  | .inf n1, .inf n2 => if n1 = n2 then .inf n1 else .nan
  | .nan, _ => .nan
  | _, .nan => .nan

end Sys2Proof.Machine
end

