-- ==== Sys2Proof/Machine/State.lean ====
section
/-! DEFINITION. The state of the engine (spec/10_state.md R20 to R32), the host's side of the command port
(spec/20_memory.md R51, R55, R60, R61), and the state after reset (R39). -/

namespace Sys2Proof.Machine

/-- The four coefficient codes (R22 to R25). `COEF_VALID` (R26) covers all four, so they are one record: it is
there, or none of the four holds a value. -/
structure Coefs where
  /-- `A0`: a0i, 16-bit two's complement (R22). -/
  a0 : BitVec 16
  /-- `B1`: b1i, 16-bit two's complement (R23). -/
  b1 : BitVec 16
  /-- `B2`: b2i, 16-bit two's complement (R24). -/
  b2 : BitVec 16
  /-- `C12`: c12i, 14-bit two's complement (R25). -/
  c12 : BitVec 14
  deriving DecidableEq, Repr

/-- The codes of R171 that exist: a response's code, and the value of `ERR`. Code 7 is never produced and is no
value here (I5, log entry 2). -/
inductive Code where
  /-- 0: the operation succeeded; in `ERR`, no fault recorded. -/
  | ok
  /-- 1: the opcode is reserved. -/
  | illegalOp
  /-- 2: the payload length is not the opcode's. -/
  | frame
  /-- 3: COMPP or COMPT with COEF_VALID = 0. -/
  | noCoef
  /-- 4: COMPP or COMPT with RAWT_VALID = 0. -/
  | noRawT
  /-- 5: COMPP with RAWP_VALID = 0. -/
  | noRawP
  /-- 6: RD of a register whose valid bit is 0. -/
  | noData
  deriving DecidableEq, Repr

/-- The value of a successful RD: one unsigned integer of the register's width (R34, R53). -/
inductive RdValue where
  | w16 (v : BitVec 16)
  | w40 (v : BitVec 40)
  | w64 (v : BitVec 64)
  deriving DecidableEq, Repr

/-- R55: the response `(code, value)` to a frame. -/
structure Response where
  code : Code
  value : Option RdValue
  deriving DecidableEq, Repr

/-- R61: the sensor's commands, which belong to the host. -/
inductive SensorCommand where
  | readCoefficients
  | readRawPressure
  | readRawTemperature
  | initiateConversion
  deriving DecidableEq, Repr

/-- The sensor's pins (R185, R202), which belong to the host. -/
inductive SensorPin where
  | shutdown
  | reset
  deriving DecidableEq, Repr

/-- What the host does to the sensor and by itself (R60): none of it changes engine state. -/
inductive SensorAction where
  /-- A bus transaction and the bytes received; `none` is a transport error (R62). -/
  | transact (c : SensorCommand) (received : Option (List Byte))
  /-- A pin asserted or released (R202). -/
  | setPin (p : SensorPin) (asserted : Bool)
  /-- The host waits (R210, R211). -/
  | wait (ms : Nat)
  deriving DecidableEq, Repr

/-- R60: the host's moves. -/
inductive HostMove where
  /-- Deliver one frame and take its response (R51, R55). -/
  | deliver (f : Frame)
  /-- Assert the engine's reset signal, between frames (R200). -/
  | reset
  /-- Anything with the sensor, or waiting. -/
  | sensor (a : SensorAction)
  deriving DecidableEq, Repr

/-- The machine's state. A data register and its valid bit are one `Option` (R20, R39): `none` is valid bit 0 and no
value (log entry 1). -/
structure State where
  /-- The build parameters of R8; no step changes them (log entry 3). -/
  params : Params
  /-- `A0`, `B1`, `B2`, `C12` and `COEF_VALID` (R22 to R26). -/
  coef : Option Coefs
  /-- `RAW_P` and `RAWP_VALID` (R27). -/
  rawP : Option (BitVec 10)
  /-- `RAW_T` and `RAWT_VALID` (R28). -/
  rawT : Option (BitVec 10)
  /-- `PCOMP` and `PCOMP_VALID` (R29). -/
  pcomp : Option (BitVec 40)
  /-- `PRES_OUT` and `PRES_VALID` (R30). -/
  presOut : Option (BitVec 64)
  /-- `TEMP_OUT` and `TEMP_VALID` (R31). -/
  tempOut : Option (BitVec 64)
  /-- `ERR`, the sticky first error (R32). -/
  err : Code
  /-- The model's own: the host's moves not yet taken, oldest first (log entry 4). -/
  port : List HostMove
  /-- The model's own: the responses returned so far, oldest first (R55, log entry 4). -/
  responses : List Response
  deriving DecidableEq, Repr

/-- Why the machine stops with a fault. It never does: an error of R171 is a response of the engine and the next
frame is performed normally (R170, R175), so a fault of the spec is a next state and this type has no
constructor (log entry 6). -/
inductive Fault where
  deriving DecidableEq, Repr

/-- Why an operation has no meaning. -/
inductive Refusal where
  /-- Raised only by an arm of `exec` whose operation has no meaning yet; there is none. Safe. -/
  | notModelled (mnemonic : String)
  deriving DecidableEq, Repr

/-- R39, R200: after reset every valid bit is 0, no data register holds a value and `ERR` is 0. The parameters are
those of SCE-v1 (R8); the port and the responses are empty (log entry 4). -/
def State.reset : State where
  params := Params.sceV1
  coef := none
  rawP := none
  rawT := none
  pcomp := none
  presOut := none
  tempOut := none
  err := .ok
  port := []
  responses := []

end Sys2Proof.Machine
end

