-- ==== Sys2Proof/Machine/Flags.lean ====
section
/-! DEFINITION. The valid bits, the error codes as bits, and the STATUS view (spec/10_state.md R33,
spec/60_exceptions.md R171). -/

namespace Sys2Proof.Machine

/-- The number of a code in R171, as the 3 bits of `ERR` (R32). -/
def Code.bits : Code → BitVec 3
  | .ok => 0
  | .illegalOp => 1
  | .frame => 2
  | .noCoef => 3
  | .noRawT => 4
  | .noRawP => 5
  | .noData => 6

/-- A valid bit: 1 exactly when its register holds a value (R20, R39). -/
def validBit {α : Type} (r : Option α) : BitVec 1 :=
  BitVec.ofBool r.isSome

/-- R33: `STATUS`, a 16-bit view with no storage of its own, most significant field first. -/
def status (s : State) : BitVec 16 :=
  0b00000#5 ++ s.err.bits ++ 0b00#2 ++ validBit s.tempOut ++ validBit s.presOut ++ validBit s.pcomp ++
    validBit s.rawT ++ validBit s.rawP ++ validBit s.coef

end Sys2Proof.Machine
end

