-- ==== Sys2Proof/Machine/Operands.lean ====
section
/-! DEFINITION. Operand assembly: payload words (spec/20_memory.md R52), the Signed Register Decoder and the c12 shift
(spec/40_load_ops.md R101, R102), the raw decoder (R105), and the register index space (spec/10_state.md R34). -/

namespace Sys2Proof.Machine

/-- R52: the word of a byte pair, the first byte the most significant. -/
def wordOf (m l : Byte) : Word :=
  m ++ l

/-- R10: the arithmetic right shift, `floor (v / 2^n)`. -/
def asr (v : Int) (n : Nat) : Int :=
  v / 2 ^ n

/-- R101: the Signed Register Decoder, in its parameter form. -/
def dec (k : NegOffset) (m l : Byte) : Int :=
  let w := wordOf m l
  if w.getLsbD 15 then (w.toNat : Int) - k.value else (w.toNat : Int)

/-- R102: the c12 code, the decoded word shifted right arithmetically by 2. -/
def decC12 (k : NegOffset) (m l : Byte) : Int :=
  asr (dec k m l) Config.c12Shift

/-- R105: the raw decoder, the word shifted right logically by 6; the result is 10 bits. -/
def raw (m l : Byte) : BitVec 10 :=
  (wordOf m l >>> Config.rawShift).setWidth 10

/-- R104: the four coefficient codes of an LDCOEF payload, each in its register's format. -/
def coefsOf (k : NegOffset) (p0 p1 p2 p3 p4 p5 p6 p7 : Byte) : Coefs where
  a0 := BitVec.ofInt 16 (dec k p0 p1)
  b1 := BitVec.ofInt 16 (dec k p2 p3)
  b2 := BitVec.ofInt 16 (dec k p4 p5)
  c12 := BitVec.ofInt 14 (decC12 k p6 p7)

/-- R34: `x[r]` as RD returns it, none where the register holds no value (its valid bit is 0) or the index is one of
the reserved 10 to 15, which no operation names (R75). -/
def register (r : BitVec 4) (s : State) : Option RdValue :=
  match r.toNat with
  | 0 => some (.w16 (status s))
  | 1 => s.coef.map fun c => .w16 c.a0
  | 2 => s.coef.map fun c => .w16 c.b1
  | 3 => s.coef.map fun c => .w16 c.b2
  | 4 => s.coef.map fun c => .w16 (c.c12.signExtend 16)
  | 5 => s.rawP.map fun v => .w16 (v.setWidth 16)
  | 6 => s.rawT.map fun v => .w16 (v.setWidth 16)
  | 7 => s.pcomp.map .w40
  | 8 => s.presOut.map .w64
  | 9 => s.tempOut.map .w64
  | _ => none

end Sys2Proof.Machine
end

