-- ==== Sys2Proof/Machine/Ops.lean ====
section
/-! DEFINITION. The named operations on the state: the writers of each register (spec/10_state.md R40), the response
(spec/20_memory.md R55), the fault mechanism (spec/60_exceptions.md R170) and reset (spec/70_reset_and_hazards.md R200).
The engine has no trap and no return from one (R174, R175): `raise` is all there is of taking an exception. -/

namespace Sys2Proof.Machine

/-- What a frame leads to. -/
abbrev Result := Host.Outcome State Fault Refusal

/-- Writes the four coefficient registers and `COEF_VALID`; `none` clears them (R26). -/
def State.setCoef (s : State) (c : Option Coefs) : State :=
  { s with coef := c }

/-- Writes `RAW_P` and `RAWP_VALID`; `none` consumes the sample (R27). -/
def State.setRawP (s : State) (v : Option (BitVec 10)) : State :=
  { s with rawP := v }

/-- Writes `RAW_T` and `RAWT_VALID`; `none` consumes the sample (R28). -/
def State.setRawT (s : State) (v : Option (BitVec 10)) : State :=
  { s with rawT := v }

/-- Writes `PCOMP` and sets `PCOMP_VALID` (R29). -/
def State.setPcomp (s : State) (v : BitVec 40) : State :=
  { s with pcomp := some v }

/-- Writes `PRES_OUT` and sets `PRES_VALID` (R30). -/
def State.setPresOut (s : State) (v : BitVec 64) : State :=
  { s with presOut := some v }

/-- Writes `TEMP_OUT` and sets `TEMP_VALID` (R31). -/
def State.setTempOut (s : State) (v : BitVec 64) : State :=
  { s with tempOut := some v }

/-- R32: `ERR <- e` if `ERR` is 0; otherwise `ERR` keeps the first error. -/
def State.recordErr (s : State) (e : Code) : State :=
  { s with err := if s.err = .ok then e else s.err }

/-- R55: `respond(code, value)`. -/
def State.respond (s : State) (code : Code) (value : Option RdValue) : State :=
  { s with responses := s.responses ++ [⟨code, value⟩] }

/-- The host's moves still to come. -/
def State.setPort (s : State) (ms : List HostMove) : State :=
  { s with port := ms }

/-- R200: the engine's reset. Every piece of engine state is as R39 says; the parameters of the build, the host's moves
to come and the responses already returned are no engine state. Reset returns no response. -/
def State.engineReset (s : State) : State :=
  { State.reset with params := s.params, port := s.port, responses := s.responses }

/-- An operation that succeeds with no value: `respond(0, none)`. -/
def complete (s : State) : Result :=
  .next (s.respond .ok none)

/-- R170: `raise E`. No register but `ERR` is written, the response carries the code, and the engine goes on. -/
def raise (e : Code) (s : State) : Result :=
  .next ((s.recordErr e).respond e none)

/-- R152: respond with a register's value, or raise NO_DATA where it holds none. -/
def answer (v : Option RdValue) (s : State) : Result :=
  match v with
  | some v => .next (s.respond .ok (some v))
  | none => raise .noData s

/-- R171: the code of a rejected frame; its `info` is stored nowhere (R170). -/
def rejectCode : Reject → Code
  | .illegalOp _ => .illegalOp
  | .frame _ _ => .frame

end Sys2Proof.Machine
end

