-- ==== Sys2Proof/Machine/Compute.lean ====
section
/-! DEFINITION. The compute operations: the multiply-accumulator (spec/41_compute_ops.md R121), the output stages (R123,
R125, R128) and COMPP and COMPT (R124, R130). -/

namespace Sys2Proof.Machine

/-- R121: the multiply-accumulator, an exact integer with 22 fraction bits. -/
def mac (c : Coefs) (pr tr : BitVec 10) : Int :=
  (c.b1.toInt * 2 ^ 9 + c.c12.toInt * tr.toNat) * pr.toNat + c.a0.toInt * 2 ^ 19 +
    c.b2.toInt * tr.toNat * 2 ^ 8

/-- R123: `KP = fdiv64(65.0, 1023.0)`. -/
def kP : F64 :=
  fdiv64 (f64 65 0) (f64 1023 0)

/-- R125: the literal 5.35 rounded once, negated. -/
def kT : F64 :=
  fneg64 (roundRatio false 535 100)

/-- R123: the pressure output stage on a compensated code. -/
def pressureF64 (m : Int) : F64 :=
  fadd64 (fmul64 (f64 m Config.pcompFrac) kP) (f64 50 0)

/-- R125: the temperature output stage on a raw count. -/
def temperatureF64 (tr : BitVec 10) : F64 :=
  fadd64 (fdiv64 (f64 ((tr.toNat : Int) - 498) 0) kT) (f64 25 0)

/-- R123, R128: `PRES_OUT` for either `OUT_ARITH`. -/
def pressureOut (a : OutArith) (m : Int) (tr : BitVec 10) : BitVec 64 :=
  match a with
  | .binary64 => (pressureF64 m).bits
  | .opaqueFunction => Config.opaquePressure m tr.toNat

/-- R125, R128: `TEMP_OUT` for either `OUT_ARITH`. -/
def temperatureOut (a : OutArith) (tr : BitVec 10) : BitVec 64 :=
  match a with
  | .binary64 => (temperatureF64 tr).bits
  | .opaqueFunction => Config.opaqueTemperature tr.toNat

/-- R124: COMPP once its three inputs are there: `PCOMP` and `PRES_OUT` written, both samples consumed. -/
def compensatePressure (c : Coefs) (pr tr : BitVec 10) (s : State) : State :=
  let m := mac c pr tr
  (((s.setPcomp (BitVec.ofInt 40 m)).setPresOut (pressureOut s.params.outArith m tr)).setRawP none).setRawT none

/-- R130: COMPT once its inputs are there: `TEMP_OUT` written, the sample consumed. -/
def compensateTemperature (tr : BitVec 10) (s : State) : State :=
  (s.setTempOut (temperatureOut s.params.outArith tr)).setRawT none

/-- R124 COMPP: NO_COEF, then NO_RAW_T, then NO_RAW_P (R173), then the computation. -/
def execCompp (s : State) : Result :=
  match s.coef, s.rawT, s.rawP with
  | none, _, _ => raise .noCoef s
  | some _, none, _ => raise .noRawT s
  | some _, some _, none => raise .noRawP s
  | some c, some tr, some pr => complete (compensatePressure c pr tr s)

/-- R130 COMPT: NO_COEF, then NO_RAW_T (R173), then the computation, which reads no coefficient. -/
def execCompt (s : State) : Result :=
  match s.coef, s.rawT with
  | none, _ => raise .noCoef s
  | some _, none => raise .noRawT s
  | some _, some tr => complete (compensateTemperature tr s)

end Sys2Proof.Machine
end

