-- ==== Sys2Proof/Machine/Control.lean ====
section
/-! DEFINITION. The control and read operations (spec/42_control_ops.md R150, R152): INVCOEF, and RD of each register of
the index space (spec/10_state.md R34). -/

namespace Sys2Proof.Machine

/-- R150 INVCOEF: `COEF_VALID <- 0`; the four codes become no value. -/
def execInvcoef (s : State) : Result :=
  complete (s.setCoef none)

/-- R152, r = 0: RD STATUS always succeeds. -/
def execRdStatus (s : State) : Result :=
  answer (register 0 s) s

/-- R152, r = 1: RD A0. -/
def execRdA0 (s : State) : Result :=
  answer (register 1 s) s

/-- R152, r = 2: RD B1. -/
def execRdB1 (s : State) : Result :=
  answer (register 2 s) s

/-- R152, r = 3: RD B2. -/
def execRdB2 (s : State) : Result :=
  answer (register 3 s) s

/-- R152, r = 4: RD C12, the 14-bit code sign-extended. -/
def execRdC12 (s : State) : Result :=
  answer (register 4 s) s

/-- R152, r = 5: RD RAW_P, zero-extended; the sample is not consumed. -/
def execRdRawP (s : State) : Result :=
  answer (register 5 s) s

/-- R152, r = 6: RD RAW_T, zero-extended; the sample is not consumed. -/
def execRdRawT (s : State) : Result :=
  answer (register 6 s) s

/-- R152, r = 7: RD PCOMP, 40 bits. -/
def execRdPcomp (s : State) : Result :=
  answer (register 7 s) s

/-- R152, r = 8: RD PRES_OUT, 64 bits. -/
def execRdPresOut (s : State) : Result :=
  answer (register 8 s) s

/-- R152, r = 9: RD TEMP_OUT, 64 bits. -/
def execRdTempOut (s : State) : Result :=
  answer (register 9 s) s

end Sys2Proof.Machine
end

