-- ==== Sys2Proof/Machine/Load.lean ====
section
/-! DEFINITION. The load operations (spec/40_load_ops.md R104, R106, R108). The payload length was checked by the decoder
(R74); no value of the bytes faults. -/

namespace Sys2Proof.Machine

/-- R106 LDRAWP: `RAW_P <- raw(p[0], p[1])`, `RAWP_VALID <- 1`. -/
def execLdrawp (m l : Byte) (s : State) : Result :=
  complete (s.setRawP (some (raw m l)))

/-- R108 LDRAWT: `RAW_T <- raw(p[0], p[1])`, `RAWT_VALID <- 1`. -/
def execLdrawt (m l : Byte) (s : State) : Result :=
  complete (s.setRawT (some (raw m l)))

/-- R104 LDCOEF: the four coefficient codes, `COEF_VALID <- 1`; it overwrites a set that is there. -/
def execLdcoef (p0 p1 p2 p3 p4 p5 p6 p7 : Byte) (s : State) : Result :=
  complete (s.setCoef (some (coefsOf s.params.negOffset p0 p1 p2 p3 p4 p5 p6 p7)))

end Sys2Proof.Machine
end

