-- ==== Sys2Proof/Machine/Dispatch.lean ====
section
/-! DEFINITION. R74's `execute d with p`: one arm per operation of the opcode map (spec/30_encoding.md R70). -/

namespace Sys2Proof.Machine

def exec (i : Instr) (s : State) : Host.Outcome State Fault Refusal :=
  match i with
  | .ldrawp m l => Sys2Proof.Machine.execLdrawp m l s
  | .ldrawt m l => Sys2Proof.Machine.execLdrawt m l s
  | .ldcoef p0 p1 p2 p3 p4 p5 p6 p7 => Sys2Proof.Machine.execLdcoef p0 p1 p2 p3 p4 p5 p6 p7 s
  | .compp => Sys2Proof.Machine.execCompp s
  | .compt => Sys2Proof.Machine.execCompt s
  | .invcoef => Sys2Proof.Machine.execInvcoef s
  | .rdStatus => Sys2Proof.Machine.execRdStatus s
  | .rdA0 => Sys2Proof.Machine.execRdA0 s
  | .rdB1 => Sys2Proof.Machine.execRdB1 s
  | .rdB2 => Sys2Proof.Machine.execRdB2 s
  | .rdC12 => Sys2Proof.Machine.execRdC12 s
  | .rdRawP => Sys2Proof.Machine.execRdRawP s
  | .rdRawT => Sys2Proof.Machine.execRdRawT s
  | .rdPcomp => Sys2Proof.Machine.execRdPcomp s
  | .rdPresOut => Sys2Proof.Machine.execRdPresOut s
  | .rdTempOut => Sys2Proof.Machine.execRdTempOut s

end Sys2Proof.Machine
end

