-- ==== Sys2Proof/Machine/Step.lean ====
section
/-! DEFINITION. One step of the machine: the engine takes the host's next move (spec/20_memory.md R55, R59, R60). -/

namespace Sys2Proof.Machine

/-- R74 `perform(op, p)`: decode, then execute. -/
def perform (f : Frame) (s : State) : Host.Outcome State Fault Refusal :=
  match decode f with
  | .ok i => exec i s
  | .error r => raise (rejectCode r) s

/-- The engine takes the oldest move and performs it completely (R55). Without one it waits, unchanged (R7, R20, R201;
log entry 4). What the host does to the sensor, and its waiting, change no engine state (R60; log entry 8). -/
def step (s : State) : Host.Outcome State Fault Refusal :=
  match s.port with
  | [] => .next s
  | .deliver f :: ms => perform f (s.setPort ms)
  | .reset :: ms => .next (s.setPort ms).engineReset
  | .sensor _ :: ms => .next (s.setPort ms)

/-- The state in which the frame of an opcode-table word is the host's next move: what the next step performs. -/
def State.withFetchWord (s : State) (nbits w : Nat) : State :=
  s.setPort (.deliver (frameOfWord nbits w) :: s.port)

end Sys2Proof.Machine
end

