-- ==== Sys2Proof/Machine/HostSide.lean ====
section
/-! DEFINITION. What the spec records of the host's side (spec/20_memory.md R61, R63) and the pseudo-operations the host may use
(spec/30_encoding.md R80). No engine step reads any of it. -/

namespace Sys2Proof.Machine

/-- R61: the bytes a command sends to the sensor at `Config.deviceAddr`. -/
def SensorCommand.sent : SensorCommand → List Byte
  | .readCoefficients => [0x04#8]
  | .readRawPressure => [0x00#8]
  | .readRawTemperature => [0x02#8]
  | .initiateConversion => [0x12#8, 0x00#8]

/-- R61: how many bytes a successful transaction receives. -/
def SensorCommand.receives : SensorCommand → Nat
  | .readCoefficients => 8
  | .readRawPressure => 2
  | .readRawTemperature => 2
  | .initiateConversion => 0

/-- R61: the opcode of the frame a response becomes; initiateConversion becomes none. -/
def SensorCommand.loadOp : SensorCommand → Option Byte
  | .readCoefficients => some 0x04#8
  | .readRawPressure => some 0x00#8
  | .readRawTemperature => some 0x02#8
  | .initiateConversion => none

/-- R61, R62: the frame the host delivers for a transaction: the received bytes unchanged and in received order, none
where the transaction failed or its command loads nothing. -/
def frameOfTransaction (c : SensorCommand) (received : Option (List Byte)) : Option Frame :=
  match c.loadOp, received with
  | some op, some bs => some ⟨op, bs⟩
  | _, _ => none

/-- R80: the pseudo-operations. -/
inductive Pseudo where
  | pressure (pm pl tm tl : Byte)
  | temperature (tm tl : Byte)
  | reload (b0 b1 b2 b3 b4 b5 b6 b7 : Byte)
  deriving DecidableEq, Repr

/-- R80: the expansion of a pseudo-operation. -/
def Pseudo.expand : Pseudo → List Instr
  | .pressure pm pl tm tl => [.ldrawp pm pl, .ldrawt tm tl, .compp, .rdPresOut]
  | .temperature tm tl => [.ldrawt tm tl, .compt, .rdTempOut]
  | .reload b0 b1 b2 b3 b4 b5 b6 b7 => [.invcoef, .ldcoef b0 b1 b2 b3 b4 b5 b6 b7]

/-- The host's moves that deliver a list of operations in order (R153). -/
def deliveries (is : List Instr) : List HostMove :=
  is.map fun i => .deliver (encode i)

/-! R63: a reading, step by step. -/

/-- R63 step 1: the sensor's asserted pins released, and the wait for it to be awake. -/
def wakeMoves (pins : List SensorPin) (wakeMs : Nat) : List HostMove :=
  pins.map (fun p => .sensor (.setPin p false)) ++ [.sensor (.wait wakeMs)]

/-- R63 step 2: the conversion trigger, and the wait after it. -/
def triggerMoves (convMs : Nat) : List HostMove :=
  [.sensor (.transact .initiateConversion (some [])), .sensor (.wait convMs)]

/-- R61: a command that succeeds with `bs`, and the frame its response becomes, delivered at once. -/
def loadMoves (c : SensorCommand) (bs : List Byte) : List HostMove :=
  .sensor (.transact c (some bs)) :: ((frameOfTransaction c (some bs)).map HostMove.deliver).toList

/-- R63 step 3: the coefficients read and loaded where `STATUS.COEF_VALID` is 0, and nothing where it is 1. -/
def coefMoves (coefValid : Bool) (cs : List Byte) : List HostMove :=
  if coefValid then [] else loadMoves .readCoefficients cs

/-- R63 steps 1 to 3, the same for both readings. `cs` is what the sensor answers to readCoefficients. -/
def readingSetup (coefValid : Bool) (pins : List SensorPin) (wakeMs convMs : Nat) (cs : List Byte) : List HostMove :=
  wakeMoves pins wakeMs ++ triggerMoves convMs ++ coefMoves coefValid cs

/-- R63: a pressure reading. `ps` and `ts` are what the sensor answers to the two raw reads. -/
def pressureReading (coefValid : Bool) (pins : List SensorPin) (wakeMs convMs : Nat) (cs ps ts : List Byte) :
    List HostMove :=
  readingSetup coefValid pins wakeMs convMs cs ++ loadMoves .readRawPressure ps ++ loadMoves .readRawTemperature ts ++
    deliveries [.compp, .rdPresOut]

/-- R63: a temperature reading, which reads no raw pressure. -/
def temperatureReading (coefValid : Bool) (pins : List SensorPin) (wakeMs convMs : Nat) (cs ts : List Byte) :
    List HostMove :=
  readingSetup coefValid pins wakeMs convMs cs ++ loadMoves .readRawTemperature ts ++ deliveries [.compt, .rdTempOut]

/-- R80: a pseudo-operation succeeds when every response of its operations is code 0. -/
def allSucceed (rs : List Response) : Bool :=
  rs.all fun r => r.code = .ok

end Sys2Proof.Machine
end

