-- ==== Sys2Proof/Machine/Asm.lean ====
section
/-! DEFINITION. The assembler syntax of spec/30_encoding.md R78, its refusals (R79), the pseudo-operations as lines (R80) and
the listing form (R78). Text is a list of characters. What R78 leaves open of it is log entry 12. -/

namespace Sys2Proof.Machine

/-- R79: why the assembler refuses a line. -/
inductive AsmReason where
  | unknownMnemonic
  | operandCount
  /-- A byte literal outside 0 to 255. -/
  | byteRange
  /-- An RD index outside 0 to 9. -/
  | rdIndex
  /-- An operand that is no literal and no register name (log entry 12). -/
  | malformedOperand
  deriving DecidableEq, Repr

/-- R79: a refusal, by name and line; lines count from 1. -/
structure AsmRefusal where
  line : Nat
  reason : AsmReason
  deriving DecidableEq, Repr

/-- The pieces of a text between the occurrences of a character. -/
def splitAtChar (c : Char) : List Char → List (List Char)
  | [] => [[]]
  | x :: xs =>
    if x = c then [] :: splitAtChar c xs
    else
      match splitAtChar c xs with
      | [] => [[x]]
      | y :: ys => (x :: y) :: ys

/-- Spaces, tabs and carriage returns separate and surround the parts of a line. -/
def isBlank (c : Char) : Bool :=
  c = ' ' || c = '\t' || c = '\r'

/-- A text without the blanks around it. -/
def trim (cs : List Char) : List Char :=
  ((cs.dropWhile isBlank).reverse.dropWhile isBlank).reverse

/-- The value of a digit character in any base up to 16. -/
def digitValue (c : Char) : Option Nat :=
  if '0' ≤ c ∧ c ≤ '9' then some (c.toNat - '0'.toNat)
  else if 'a' ≤ c ∧ c ≤ 'f' then some (c.toNat - 'a'.toNat + 10)
  else if 'A' ≤ c ∧ c ≤ 'F' then some (c.toNat - 'A'.toNat + 10)
  else none

/-- The digits of a numeral in a base, after the value read so far. -/
def digitsFrom (base acc : Nat) : List Char → Option Nat
  | [] => some acc
  | c :: cs =>
    match digitValue c with
    | some d => if d < base then digitsFrom base (base * acc + d) cs else none
    | none => none

/-- A numeral of at least one digit. That it may have any number of digits and leading zeros, and is judged by its value
alone (`RD 09`, `007`, `0x00FF`), is the model's choice (log entry 12). -/
def numeralIn (base : Nat) : List Char → Option Nat
  | [] => none
  | cs => digitsFrom base 0 cs

/-- R78: a literal, decimal, or hexadecimal with `0x`. -/
def numeral : List Char → Option Nat
  | '0' :: 'x' :: cs => numeralIn 16 cs
  | cs => numeralIn 10 cs

/-- R78, R79: a byte operand, a literal 0 to 255. -/
def byteOperand (cs : List Char) : Except AsmReason Byte :=
  match numeral cs with
  | none => .error .malformedOperand
  | some n => if n ≤ 255 then .ok (BitVec.ofNat 8 n) else .error .byteRange

/-- The register names of R34. -/
def registerNames : List (List Char × Instr) :=
  [(['S', 'T', 'A', 'T', 'U', 'S'], .rdStatus), (['A', '0'], .rdA0), (['B', '1'], .rdB1), (['B', '2'], .rdB2),
   (['C', '1', '2'], .rdC12), (['R', 'A', 'W', '_', 'P'], .rdRawP), (['R', 'A', 'W', '_', 'T'], .rdRawT),
   (['P', 'C', 'O', 'M', 'P'], .rdPcomp), (['P', 'R', 'E', 'S', '_', 'O', 'U', 'T'], .rdPresOut),
   (['T', 'E', 'M', 'P', '_', 'O', 'U', 'T'], .rdTempOut)]

/-- R78, R79: the operand of RD, a register name or a decimal index 0 to 9. -/
def rdOperand (cs : List Char) : Except AsmReason Instr :=
  match registerNames.find? fun e => e.1 = cs with
  | some e => .ok e.2
  | none =>
    match numeralIn 10 cs with
    | none => .error .malformedOperand
    | some n =>
      if n ≤ 9 then
        match rdOfIndex (BitVec.ofNat 4 n) with
        | some i => .ok i
        | none => .error .rdIndex
      else .error .rdIndex

/-- Every operand of a list as a byte, refusing the first that is none. -/
def byteOperands : List (List Char) → Except AsmReason (List Byte)
  | [] => .ok []
  | c :: cs =>
    match byteOperand c with
    | .error r => .error r
    | .ok b =>
      match byteOperands cs with
      | .error r => .error r
      | .ok bs => .ok (b :: bs)

/-- The mnemonics of R78 and R80. -/
inductive Mnemonic where
  | ldcoef | ldrawp | ldrawt | compp | compt | invcoef | rd | pressure | temperature | reload
  deriving DecidableEq, Repr

/-- The spellings of the mnemonics, in capitals. -/
def mnemonics : List (List Char × Mnemonic) :=
  [(['L', 'D', 'C', 'O', 'E', 'F'], .ldcoef), (['L', 'D', 'R', 'A', 'W', 'P'], .ldrawp),
   (['L', 'D', 'R', 'A', 'W', 'T'], .ldrawt), (['C', 'O', 'M', 'P', 'P'], .compp), (['C', 'O', 'M', 'P', 'T'], .compt),
   (['I', 'N', 'V', 'C', 'O', 'E', 'F'], .invcoef), (['R', 'D'], .rd),
   (['P', 'R', 'E', 'S', 'S', 'U', 'R', 'E'], .pressure),
   (['T', 'E', 'M', 'P', 'E', 'R', 'A', 'T', 'U', 'R', 'E'], .temperature), (['R', 'E', 'L', 'O', 'A', 'D'], .reload)]

/-- R78: how many operands a mnemonic takes. -/
def Mnemonic.operandCount : Mnemonic → Nat
  | .ldcoef => 8
  | .ldrawp => 2
  | .ldrawt => 2
  | .compp => 0
  | .compt => 0
  | .invcoef => 0
  | .rd => 1
  | .pressure => 4
  | .temperature => 2
  | .reload => 8

/-- A mnemonic on its operand bytes; a pseudo-operation is its expansion (R80). RD takes no bytes. -/
def assembleBytes : Mnemonic → List Byte → Except AsmReason (List Instr)
  | .ldcoef, [a, b, c, d, e, f, g, h] => .ok [.ldcoef a b c d e f g h]
  | .ldrawp, [a, b] => .ok [.ldrawp a b]
  | .ldrawt, [a, b] => .ok [.ldrawt a b]
  | .compp, [] => .ok [.compp]
  | .compt, [] => .ok [.compt]
  | .invcoef, [] => .ok [.invcoef]
  | .pressure, [a, b, c, d] => .ok (Pseudo.pressure a b c d).expand
  | .temperature, [a, b] => .ok (Pseudo.temperature a b).expand
  | .reload, [a, b, c, d, e, f, g, h] => .ok (Pseudo.reload a b c d e f g h).expand
  | _, _ => .error .operandCount

/-- R78, R79: a mnemonic with its operand texts; the operand count is checked first (log entry 12). -/
def assembleOp (m : Mnemonic) (ops : List (List Char)) : Except AsmReason (List Instr) :=
  if ops.length ≠ m.operandCount then .error .operandCount
  else
    match m, ops with
    | .rd, [r] =>
      match rdOperand r with
      | .ok i => .ok [i]
      | .error e => .error e
    | m, ops =>
      match byteOperands ops with
      | .ok bs => assembleBytes m bs
      | .error e => .error e

/-- The operand texts after a mnemonic: none where nothing is left, otherwise the pieces between commas. -/
def operandTexts (cs : List Char) : List (List Char) :=
  if trim cs = [] then [] else (splitAtChar ',' cs).map trim

/-- R78: a line without its comment and the blanks around it. -/
def lineBody (cs : List Char) : List Char :=
  trim (cs.takeWhile fun c => c ≠ ';')

/-- R78: a line's mnemonic, in capitals. -/
def lineWord (cs : List Char) : List Char :=
  ((lineBody cs).takeWhile fun c => !isBlank c).map Char.toUpper

/-- R78: a line's operands. -/
def lineOperands (cs : List Char) : List (List Char) :=
  operandTexts ((lineBody cs).dropWhile fun c => !isBlank c)

/-- R78: one line. `;` begins a comment; a line with nothing else is no operation. Mnemonics are case-insensitive. -/
def assembleLine (cs : List Char) : Except AsmReason (List Instr) :=
  if lineBody cs = [] then .ok []
  else
    match mnemonics.find? fun e => e.1 = lineWord cs with
    | none => .error .unknownMnemonic
    | some e => assembleOp e.2 (lineOperands cs)

/-- R79: the lines of a program, the first of them numbered `n`; the first refusal ends it. -/
def assembleLines (n : Nat) : List (List Char) → Except AsmRefusal (List Instr)
  | [] => .ok []
  | l :: ls =>
    match assembleLine l with
    | .error r => .error ⟨n, r⟩
    | .ok is =>
      match assembleLines (n + 1) ls with
      | .error r => .error r
      | .ok rest => .ok (is ++ rest)

/-- R78, R79: a program's text, one operation per line. -/
def assemble (cs : List Char) : Except AsmRefusal (List Instr) :=
  assembleLines 1 (splitAtChar '\n' cs)

/-- A hexadecimal digit, in capitals. -/
def hexDigit (n : Nat) : Char :=
  if n < 10 then Char.ofNat ('0'.toNat + n) else Char.ofNat ('A'.toNat + (n - 10))

/-- A byte as two hexadecimal digits. -/
def hexByte (b : Byte) : List Char :=
  [hexDigit (b.toNat / 16), hexDigit (b.toNat % 16)]

/-- R78: the listing form of a frame, its bytes in hexadecimal separated by spaces. -/
def listing (f : Frame) : List Char :=
  [' '].intercalate (f.bytes.map hexByte)

/-- The operand list of an operation as text: `0xNN` bytes separated by a comma and a space. -/
def byteTexts (bs : List Byte) : List Char :=
  [',', ' '].intercalate (bs.map fun b => '0' :: 'x' :: hexByte b)

/-- R78: an operation in the assembler's syntax. -/
def sourceLine : Instr → List Char
  | .ldcoef p0 p1 p2 p3 p4 p5 p6 p7 =>
    ['L', 'D', 'C', 'O', 'E', 'F', ' '] ++ byteTexts [p0, p1, p2, p3, p4, p5, p6, p7]
  | .ldrawp m l => ['L', 'D', 'R', 'A', 'W', 'P', ' '] ++ byteTexts [m, l]
  | .ldrawt m l => ['L', 'D', 'R', 'A', 'W', 'T', ' '] ++ byteTexts [m, l]
  | .compp => ['C', 'O', 'M', 'P', 'P']
  | .compt => ['C', 'O', 'M', 'P', 'T']
  | .invcoef => ['I', 'N', 'V', 'C', 'O', 'E', 'F']
  | .rdStatus => ['R', 'D', ' ', 'S', 'T', 'A', 'T', 'U', 'S']
  | .rdA0 => ['R', 'D', ' ', 'A', '0']
  | .rdB1 => ['R', 'D', ' ', 'B', '1']
  | .rdB2 => ['R', 'D', ' ', 'B', '2']
  | .rdC12 => ['R', 'D', ' ', 'C', '1', '2']
  | .rdRawP => ['R', 'D', ' ', 'R', 'A', 'W', '_', 'P']
  | .rdRawT => ['R', 'D', ' ', 'R', 'A', 'W', '_', 'T']
  | .rdPcomp => ['R', 'D', ' ', 'P', 'C', 'O', 'M', 'P']
  | .rdPresOut => ['R', 'D', ' ', 'P', 'R', 'E', 'S', '_', 'O', 'U', 'T']
  | .rdTempOut => ['R', 'D', ' ', 'T', 'E', 'M', 'P', '_', 'O', 'U', 'T']

end Sys2Proof.Machine
end

