-- ==== Sys2Proof/Safety.lean ====
section
/-! DEFINITION. What counts as a safe run, in the terms the statements use: readiness of an operation (spec/20_memory.md R64),
no fault recorded (spec/10_state.md R32), the invariant of the state, and the host's duties toward the sensor
(spec/70_reset_and_hazards.md R210, R211), which are premises about the host and never engine steps (R215). -/

namespace Sys2Proof.Machine

/-- R32: "A model reads `ERR` = 0 as no fault recorded". -/
abbrev noFaultRecorded (s : State) : Prop :=
  s.err = .ok

/-- R171, R173: the code of the first precondition of an operation that does not hold, `ok` where all hold. -/
def readiness (i : Instr) (s : State) : Code :=
  match i with
  | .ldrawp _ _ | .ldrawt _ _ | .ldcoef _ _ _ _ _ _ _ _ | .invcoef | .rdStatus => .ok
  | .compp =>
    if s.coef = none then .noCoef else if s.rawT = none then .noRawT else if s.rawP = none then .noRawP else .ok
  | .compt => if s.coef = none then .noCoef else if s.rawT = none then .noRawT else .ok
  | .rdA0 | .rdB1 | .rdB2 | .rdC12 => if s.coef = none then .noData else .ok
  | .rdRawP => if s.rawP = none then .noData else .ok
  | .rdRawT => if s.rawT = none then .noData else .ok
  | .rdPcomp => if s.pcomp = none then .noData else .ok
  | .rdPresOut => if s.presOut = none then .noData else .ok
  | .rdTempOut => if s.tempOut = none then .noData else .ok

/-- R173: the code of a frame's response, ILLEGAL_OP before FRAME before the operation's own preconditions. -/
def frameCode (f : Frame) (s : State) : Code :=
  if Frame.legalOp f.op = false then .illegalOp
  else if f.payload.length ≠ Frame.payloadBytes f.op then .frame
  else
    match decode f with
    | .ok i => readiness i s
    | .error _ => .frame

/-- The state with everything of the engine's own as in `s`, `ERR` taking the code of a fault (R32, R170), and the
response added. -/
def faulted (e : Code) (s : State) : State :=
  { s with err := if s.err = .ok then e else s.err, responses := s.responses ++ [⟨e, none⟩] }

/-! The invariant of the state. -/

/-- R121: the least accumulator value, for either `NEG_OFFSET`. -/
def macLeast : NegOffset → Int
  | .off65535 => -51496362752
  | .off65536 => -51497672704

/-- R121: the greatest accumulator value. -/
def macGreatest : Int :=
  51495316223

/-- R22, R23, R24: the least code of A0, B1 and B2 for either `NEG_OFFSET`. -/
def codeLeast : NegOffset → Int
  | .off65535 => -32767
  | .off65536 => -32768

/-- R22 to R24: the codes of a coefficient set are values the decoder can give. -/
abbrev Coefs.inRange (k : NegOffset) (c : Coefs) : Prop :=
  codeLeast k ≤ c.a0.toInt ∧ codeLeast k ≤ c.b1.toInt ∧ codeLeast k ≤ c.b2.toInt

/-- R22 to R24, R26: the coefficient set, where there is one, is in range. -/
abbrev coefInv (s : State) : Prop :=
  ∀ c ∈ s.coef, c.inRange s.params.negOffset

/-- R29, R121: the accumulator, where it holds a value, is in the bounds of the multiply-accumulator. -/
abbrev pcompInv (s : State) : Prop :=
  ∀ v ∈ s.pcomp, macLeast s.params.negOffset ≤ v.toInt ∧ v.toInt ≤ macGreatest

/-- R40: only COMPP writes `PCOMP` and `PRES_OUT`, and it writes both: they are valid together. -/
abbrev pairInv (s : State) : Prop :=
  s.pcomp.isSome = s.presOut.isSome

/-- R30, R123: with binary64 arithmetic `PRES_OUT` is the pressure stage of the accumulator beside it. -/
abbrev presInv (s : State) : Prop :=
  s.params.outArith = .binary64 →
    ∀ v ∈ s.pcomp, s.presOut = some (pressureF64 v.toInt).bits

/-- R31, R125: with binary64 arithmetic `TEMP_OUT` is the temperature stage of some raw count. -/
abbrev tempInv (s : State) : Prop :=
  s.params.outArith = .binary64 →
    ∀ v ∈ s.tempOut, ∃ tr : BitVec 10, v = (temperatureF64 tr).bits

/-- The invariant that every step keeps. -/
structure Inv (s : State) : Prop where
  coef : coefInv s
  pcomp : pcompInv s
  pair : pairInv s
  pres : presInv s
  temp : tempInv s

/-! Host moves, sorted by what they may change. -/

/-- The move delivers a well-formed frame of the operation. -/
abbrev HostMove.performs (m : HostMove) (i : Instr) : Prop :=
  m = .deliver (encode i)

/-- The move delivers a well-formed LDCOEF frame. -/
abbrev HostMove.loadsCoefs (m : HostMove) : Prop :=
  ∃ p0 p1 p2 p3 p4 p5 p6 p7, m.performs (.ldcoef p0 p1 p2 p3 p4 p5 p6 p7)

/-- The move delivers a frame. -/
def HostMove.isDelivery : HostMove → Bool
  | .deliver _ => true
  | _ => false

/-! The host's duties (R64, R203, R210, R211). -/

/-- What the host must keep track of to meet its duties toward the sensor. -/
structure SensorView where
  /-- The shutdown pin is asserted. -/
  shutdown : Bool
  /-- The reset pin is asserted. -/
  reset : Bool
  /-- Milliseconds since a pin was last released. -/
  awakeFor : Nat
  /-- Milliseconds since the last conversion trigger; none where there was none since a pin last changed. That a change
  of a pin forgets a conversion, and that nothing else does, is the model's choice (log entry 10). -/
  convertedFor : Option Nat
  /-- The frames that carry the responses of the successful load transactions so far, latest first. That the host may
  keep them for as long as it likes is the model's choice (log entry 13). -/
  received : List Frame
  deriving DecidableEq, Repr

/-- R211: a command to an awake sensor, at least `T_WAKE_MS` after it woke; R210: a raw count read at least
`T_CONV_MS` after the conversion trigger. -/
def commandSettled (v : SensorView) (c : SensorCommand) : Bool :=
  !v.shutdown && !v.reset && decide (Config.tWakeMs ≤ v.awakeFor) &&
    match c with
    | .readRawPressure | .readRawTemperature =>
      match v.convertedFor with
      | some t => decide (Config.tConvMs ≤ t)
      | none => false
    | .readCoefficients | .initiateConversion => true

/-- R211: a pin driven to a level. The wake window starts where an asserted pin is released. That a change of level
forgets a conversion, and that driving a pin to the level it has changes nothing, is the model's choice
(log entry 10). -/
def SensorView.drivePin (v : SensorView) (p : SensorPin) (on : Bool) : SensorView :=
  let was := match p with
    | .shutdown => v.shutdown
    | .reset => v.reset
  { v with
    shutdown := if p = .shutdown then on else v.shutdown
    reset := if p = .reset then on else v.reset
    convertedFor := if was = on then v.convertedFor else none
    awakeFor := if was && !on then 0 else v.awakeFor }

/-- The host's view after something it does to the sensor. A failed transaction adds no response and
takes none away (log entry 13). A raw read uses up no conversion: that one trigger serves any number of later raw reads
and readings, though R63 and R203 put a trigger before a reading, is the model's choice (log entry 10). -/
def SensorView.after (v : SensorView) : SensorAction → SensorView
  | .transact c r =>
    { v with
      convertedFor := if c = .initiateConversion ∧ r.isSome then some 0 else v.convertedFor
      received := (frameOfTransaction c r).toList ++ v.received }
  | .setPin p on => v.drivePin p on
  | .wait ms =>
    { v with awakeFor := v.awakeFor + ms, convertedFor := v.convertedFor.map (· + ms) }

/-- A frame that loads sensor data into the engine (R61). -/
def isLoadFrame (f : Frame) : Bool :=
  f.op = 0x00#8 || f.op = 0x02#8 || f.op = 0x04#8

/-- R61, R64, R210, R211, the load rows: every command is sent outside the settling windows, and every load frame
delivers the bytes of some successful transaction of its command before it, unchanged and 8 or 2 of them. Several responses may be read
before any is delivered, and delivered in any order and more than once: R63 and R64 do not forbid it, and that the model
allows it is its choice (log entry 13). -/
def sensorDutiesMet (v : SensorView) : List HostMove → Bool
  | [] => true
  | .deliver f :: ms => (!isLoadFrame f || (decide (f ∈ v.received) && f.wellFormed)) && sensorDutiesMet v ms
  | .reset :: ms => sensorDutiesMet v ms
  | .sensor (.transact c r) :: ms => commandSettled v c && sensorDutiesMet (v.after (.transact c r)) ms
  | .sensor a :: ms => sensorDutiesMet (v.after a) ms

/-- The state after one move of the host. -/
def afterMove (m : HostMove) (s : State) : State :=
  match step { s with port := [m] } with
  | .next t => t
  | _ => s

/-- The codes of a compute whose inputs are not there (R171). -/
def isMissingInput (e : Code) : Bool :=
  e = .noCoef || e = .noRawT || e = .noRawP

/-- R64, the first and the compute row, and R203 step 3: at every COMPP and COMPT the inputs were loaded. -/
def inputsLoaded (s : State) : List HostMove → Bool
  | [] => true
  | .deliver f :: ms => !isMissingInput (frameCode f s) && inputsLoaded (afterMove (.deliver f) s) ms
  | .reset :: ms => inputsLoaded (afterMove .reset s) ms
  | .sensor a :: ms => inputsLoaded (afterMove (.sensor a) s) ms

/-- R64: the host's musts over its moves, from what it knows of the sensor and the state of the engine. The must of the
invalidate row holds only if the host wants fresh coefficients, which its moves do not show: that it is left out of this
predicate, so that a host may compute with the old set (R212), is the model's choice (log entry 14). What else the spec
leaves open of the musts is log entries 10 and 13. -/
def hostDutiesMet (v : SensorView) (s : State) (ms : List HostMove) : Bool :=
  sensorDutiesMet v ms && inputsLoaded s ms

/-- R203 step 1: before its first compute the host resets the engine, or the engine was in a state with `ERR` = 0. The
frames it delivers before that, an RD STATUS to know `ERR` among them, are free. That `ERR` is judged in the state the moves
start from, and that a fault between there and the first compute does not void the step, is the model's choice
(log entry 15). -/
def bootsClear (s : State) : List HostMove → Bool
  | [] => true
  | .deliver f :: ms =>
    if f = encode .compp ∨ f = encode .compt then decide (noFaultRecorded s) else bootsClear s ms
  | .reset :: _ => true
  | .sensor _ :: ms => bootsClear s ms

/-- R203: what the host must do from the boot on, its step 1 before R64's musts, which are its steps 2 to 4. -/
def bootDutiesMet (v : SensorView) (s : State) (ms : List HostMove) : Bool :=
  bootsClear s ms && hostDutiesMet v s ms

end Sys2Proof.Machine
end

