-- ==== Sys2Proof/Certificates/Slice0/Obligations.lean ====
section
/-! DEFINITION. The statements for the provers. Each docstring names the rule of spec/ it comes from. An equation
`exec i s = .next { s with … }` says what the operation writes AND that it leaves everything else as it was. -/

open Sys2Proof Sys2Proof.Machine

/-! ## Encoding and dispatch -/

/-- R70, R71: frames written out byte by byte from the opcode map and the format tables (30_encoding.md), one at
least of every format, and two that are rejected. -/
def Obligations.SpecFramesDecode : Prop :=
  decodeBytes [0x04#8, 0x3E#8, 0xCE#8, 0xB3#8, 0xF9#8, 0xC5#8, 0x17#8, 0x33#8, 0xC8#8] =
      some (.ok (.ldcoef 0x3E#8 0xCE#8 0xB3#8 0xF9#8 0xC5#8 0x17#8 0x33#8 0xC8#8)) ∧
    decodeBytes [0x00#8, 0x66#8, 0x80#8] = some (.ok (.ldrawp 0x66#8 0x80#8)) ∧
    decodeBytes [0x02#8, 0x7E#8, 0xC0#8] = some (.ok (.ldrawt 0x7E#8 0xC0#8)) ∧
    decodeBytes [0b00010000#8] = some (.ok .compp) ∧
    decodeBytes [0b00010001#8] = some (.ok .compt) ∧
    decodeBytes [0b00100000#8] = some (.ok .invcoef) ∧
    decodeBytes [0b00110000#8] = some (.ok .rdStatus) ∧
    decodeBytes [0b00111000#8] = some (.ok .rdPresOut) ∧
    decodeBytes [0x12#8, 0x00#8] = some (.error (.illegalOp 0x12#8)) ∧
    decodeBytes [0x04#8, 0x3E#8, 0xCE#8] = some (.error (.frame 0x04#8 2))

/-- R70, R71, R74: the decoder accepts exactly the encodings, each as the operation it encodes; no bit of an
operand is dropped and no frame has two meanings. -/
def Obligations.DecodeEncodeAgree : Prop :=
  ∀ (f : Frame) (i : Instr), decode f = .ok i ↔ f = encode i

/-- R51, R72, R75: the decoder rejects a frame exactly when a check of its well-formedness fails, and by the name of
the check, the opcode's before the length's. -/
def Obligations.DecodeRejectsByName : Prop :=
  ∀ f : Frame,
    ((∃ i, decode f = .ok i) ↔ f.wellFormed = true) ∧
      (decode f = .error (.illegalOp f.op) ↔ Frame.legalOp f.op = false) ∧
      (decode f = .error (.frame f.op f.payload.length) ↔
        Frame.legalOp f.op = true ∧ f.payload.length ≠ Frame.payloadBytes f.op)

/-- R75: every opcode but the sixteen of R70 faults with ILLEGAL_OP whatever its payload, and changes nothing but `ERR`;
there are 240 of them. -/
def Obligations.ReservedOpcodesFault : Prop :=
  let listed : List Byte :=
    [0x00#8, 0x02#8, 0x04#8, 0x10#8, 0x11#8, 0x20#8, 0x30#8, 0x31#8, 0x32#8, 0x33#8, 0x34#8, 0x35#8, 0x36#8, 0x37#8,
      0x38#8, 0x39#8]
  (∀ (s : State) (f : Frame) (ms : List HostMove),
      s.port = .deliver f :: ms → f.op ∉ listed →
        step s = .next
          { s with
            port := ms
            err := if s.err = .ok then .illegalOp else s.err
            responses := s.responses ++ [⟨.illegalOp, none⟩] }) ∧
    ((List.range 256).filter fun n => decide (BitVec.ofNat 8 n ∉ listed)).length = 240

/-- R51, R72: a legal opcode with a payload of another length than R72 lists faults with FRAME, and changes nothing but
`ERR`; with a payload of that length the frame is an operation. -/
def Obligations.WrongPayloadLengthFaults : Prop :=
  let rest : List Byte :=
    [0x10#8, 0x11#8, 0x20#8, 0x30#8, 0x31#8, 0x32#8, 0x33#8, 0x34#8, 0x35#8, 0x36#8, 0x37#8, 0x38#8, 0x39#8]
  (∀ (s : State) (f : Frame) (ms : List HostMove),
      s.port = .deliver f :: ms →
        (f.op = 0x04#8 ∧ f.payload.length ≠ 8 ∨ f.op ∈ [0x00#8, 0x02#8] ∧ f.payload.length ≠ 2 ∨
          f.op ∈ rest ∧ f.payload.length ≠ 0) →
          step s = .next
            { s with
              port := ms
              err := if s.err = .ok then .frame else s.err
              responses := s.responses ++ [⟨.frame, none⟩] }) ∧
    ∀ f : Frame,
      (f.op = 0x04#8 ∧ f.payload.length = 8 ∨ f.op ∈ [0x00#8, 0x02#8] ∧ f.payload.length = 2 ∨
        f.op ∈ rest ∧ f.payload.length = 0) →
        ∃ i, decode f = .ok i

/-- R74: a step takes the frame at the head of the port and runs the operation it decodes to, or raises the code of its
rejection. The last clause is the model's choice and no rule's (log entry 4): what the frame of an opcode-table word is, and
that `withFetchWord` stands for the host's delivery of it; the next step then runs that word's operation. -/
def Obligations.StepRunsDecodedFrame : Prop :=
  (∀ (s : State) (f : Frame) (ms : List HostMove) (i : Instr),
      s.port = .deliver f :: ms → decode f = .ok i → step s = exec i { s with port := ms }) ∧
    (∀ (s : State) (f : Frame) (ms : List HostMove) (r : Reject),
      s.port = .deliver f :: ms → decode f = .error r →
        step s = .next (faulted (rejectCode r) { s with port := ms })) ∧
    (∀ (s : State) (nbits w : Nat) (i : Instr),
      decodeTableWord nbits w = some i → step (s.withFetchWord nbits w) = exec i s)

/-! ## The decoders and the load operations -/

/-- R101: the Signed Register Decoder at both `NEG_OFFSET`, its ranges and its corner cases. `65535 - w` is the 16-bit
inversion of `w` (R10). -/
def Obligations.SignedDecoderFollowsAlgorithm : Prop :=
  (∀ m l : Byte,
      let w := m.toNat * 256 + l.toNat
      dec .off65535 m l = (if w < 32768 then (w : Int) else -((65535 : Int) - w)) ∧
        dec .off65536 m l = (if w < 32768 then (w : Int) else (w : Int) - 65536) ∧
        -32767 ≤ dec .off65535 m l ∧ dec .off65535 m l ≤ 32767 ∧
        -32768 ≤ dec .off65536 m l ∧ dec .off65536 m l ≤ 32767) ∧
    dec .off65535 0x80#8 0x00#8 = -32767 ∧ dec .off65535 0x80#8 0x01#8 = -32766 ∧
    dec .off65535 0xFF#8 0xFE#8 = -1 ∧ dec .off65535 0xFF#8 0xFF#8 = 0 ∧ dec .off65535 0x00#8 0x00#8 = 0 ∧
    dec .off65535 0x7F#8 0xFF#8 = 32767 ∧ dec .off65535 0x00#8 0x01#8 = 1 ∧ dec .off65536 0xFF#8 0xFF#8 = -1

/-- R102: the code held in `C12` is the decoded word floor-divided by 4, in the 14-bit range for either `NEG_OFFSET`,
with the rule's corner cases. -/
def Obligations.C12ShiftFloors : Prop :=
  (∀ (k : NegOffset) (m l : Byte),
      4 * decC12 k m l ≤ dec k m l ∧ dec k m l < 4 * decC12 k m l + 4 ∧
        -8192 ≤ decC12 k m l ∧ decC12 k m l ≤ 8191 ∧
        ∀ a b c d e f : Byte, (coefsOf k a b c d e f m l).c12.toInt = decC12 k m l) ∧
    dec .off65535 0x80#8 0x03#8 = -32764 ∧ dec .off65535 0x33#8 0xC8#8 = 13256 ∧
    decC12 .off65535 0x80#8 0x00#8 = -8192 ∧ decC12 .off65535 0x80#8 0x03#8 = -8191 ∧
    decC12 .off65535 0xFF#8 0xFE#8 = -1 ∧ decC12 .off65535 0xFF#8 0xFF#8 = 0 ∧
    decC12 .off65535 0x7F#8 0xFF#8 = 8191 ∧ decC12 .off65535 0x33#8 0xC8#8 = 3314

/-- R105: a raw count is the word's upper ten bits; the lower six never matter; the rule's corner cases. -/
def Obligations.RawDecoderTakesUpperTenBits : Prop :=
  (∀ m l : Byte, (raw m l).toNat = (m.toNat * 256 + l.toNat) / 64 ∧ (raw m l).toNat ≤ 1023) ∧
    (∀ m l l' : Byte, l.toNat / 64 = l'.toNat / 64 → raw m l = raw m l') ∧
    raw 0x00#8 0x00#8 = 0 ∧ raw 0x00#8 0x3F#8 = 0 ∧ raw 0x00#8 0x40#8 = 1 ∧ raw 0x80#8 0x00#8 = 512 ∧
    raw 0xFF#8 0xC0#8 = 1023 ∧ raw 0xFF#8 0xFF#8 = 1023

/-- R104: LDCOEF writes the four codes, each exactly the decoded value, sets COEF_VALID, answers OK with no value, and
changes nothing else, whatever the bytes and whether or not a set was there; its frame is opcode 0x04 with the 8 bytes,
and a payload that is not 8 bytes faults FRAME; the rule's example. -/
def Obligations.LdcoefLoadsCoefficients : Prop :=
  (∀ (s : State) (p0 p1 p2 p3 p4 p5 p6 p7 : Byte), ∃ c : Coefs,
      exec (.ldcoef p0 p1 p2 p3 p4 p5 p6 p7) s =
          .next { s with coef := some c, responses := s.responses ++ [⟨.ok, none⟩] } ∧
        c.a0.toInt = dec s.params.negOffset p0 p1 ∧ c.b1.toInt = dec s.params.negOffset p2 p3 ∧
        c.b2.toInt = dec s.params.negOffset p4 p5 ∧ c.c12.toInt = asr (dec s.params.negOffset p6 p7) 2) ∧
    (∀ (s : State) (p0 p1 p2 p3 p4 p5 p6 p7 : Byte) (ms : List HostMove),
      s.port = .deliver ⟨0x04#8, [p0, p1, p2, p3, p4, p5, p6, p7]⟩ :: ms →
        step s = exec (.ldcoef p0 p1 p2 p3 p4 p5 p6 p7) { s with port := ms }) ∧
    (∀ (s : State) (f : Frame) (ms : List HostMove),
      s.port = .deliver f :: ms → f.op = 0x04#8 → f.payload.length ≠ 8 →
        step s = .next (faulted .frame { s with port := ms })) ∧
    (∃ t, exec (.ldcoef 0x3E#8 0xCE#8 0xB3#8 0xF9#8 0xC5#8 0x17#8 0x33#8 0xC8#8) State.reset = .next t ∧
      t.coef.map (fun c => (c.a0.toInt, c.b1.toInt, c.b2.toInt, c.c12.toInt)) =
        some (16078, -19462, -15080, 3314) ∧
      (status t).getLsbD 0 = true)

/-- R106: LDRAWP writes the decoded count to RAW_P, over one that was there, sets RAWP_VALID, answers OK and changes
nothing else; a later COMPP uses it; its frame is opcode 0x00 with the 2 bytes, and a payload that is not 2 bytes faults
FRAME; the rule's example. -/
def Obligations.LdrawpLatchesPressure : Prop :=
  (∀ (s : State) (m l : Byte), ∃ v : BitVec 10,
      exec (.ldrawp m l) s = .next { s with rawP := some v, responses := s.responses ++ [⟨.ok, none⟩] } ∧
        v.toNat = (m.toNat * 256 + l.toNat) / 64 ∧
        ∀ (t : State) (c : Coefs) (tr : BitVec 10),
          exec (.ldrawp m l) s = .next t → t.coef = some c → t.rawT = some tr →
            ∃ u, exec .compp t = .next u ∧ u.pcomp = some (BitVec.ofInt 40 (mac c v tr))) ∧
    (∀ (s : State) (m l : Byte) (ms : List HostMove),
      s.port = .deliver ⟨0x00#8, [m, l]⟩ :: ms → step s = exec (.ldrawp m l) { s with port := ms }) ∧
    (∀ (s : State) (f : Frame) (ms : List HostMove),
      s.port = .deliver f :: ms → f.op = 0x00#8 → f.payload.length ≠ 2 →
        step s = .next (faulted .frame { s with port := ms })) ∧
    (∃ t, exec (.ldrawp 0x66#8 0x80#8) State.reset = .next t ∧ t.rawP = some 410#10)

/-- R108: LDRAWT writes the decoded count to RAW_T, over one that was there, sets RAWT_VALID, answers OK and changes
nothing else; a later COMPP and a later COMPT use it; its frame is opcode 0x02 with the 2 bytes, and a payload that is not
2 bytes faults FRAME; the rule's example. -/
def Obligations.LdrawtLatchesTemperature : Prop :=
  (∀ (s : State) (m l : Byte), ∃ v : BitVec 10,
      exec (.ldrawt m l) s = .next { s with rawT := some v, responses := s.responses ++ [⟨.ok, none⟩] } ∧
        v.toNat = (m.toNat * 256 + l.toNat) / 64 ∧
        ∀ (t : State) (c : Coefs),
          exec (.ldrawt m l) s = .next t → t.coef = some c →
            (∀ pr : BitVec 10, t.rawP = some pr →
              ∃ u, exec .compp t = .next u ∧ u.pcomp = some (BitVec.ofInt 40 (mac c pr v))) ∧
            ∃ u, exec .compt t = .next u ∧ u.tempOut = some (temperatureOut s.params.outArith v)) ∧
    (∀ (s : State) (m l : Byte) (ms : List HostMove),
      s.port = .deliver ⟨0x02#8, [m, l]⟩ :: ms → step s = exec (.ldrawt m l) { s with port := ms }) ∧
    (∀ (s : State) (f : Frame) (ms : List HostMove),
      s.port = .deliver f :: ms → f.op = 0x02#8 → f.payload.length ≠ 2 →
        step s = .next (faulted .frame { s with port := ms })) ∧
    (∃ t, exec (.ldrawt 0x7E#8 0xC0#8) State.reset = .next t ∧ t.rawT = some 507#10)

/-- R103: the source's four divisions, done in F64 on the codes, are exact: each gives the code times the register's
fixed power of two, as an exact multiple of 2^-1074. -/
def Obligations.CoefficientScalesAreExact : Prop :=
  (∀ v : BitVec 16,
      fdiv64 (f64 v.toInt 0) (f64 8 0) = f64 v.toInt 3 ∧ (f64 v.toInt 3).units = v.toInt * 2 ^ 1071 ∧
        fdiv64 (f64 v.toInt 0) (f64 8192 0) = f64 v.toInt 13 ∧ (f64 v.toInt 13).units = v.toInt * 2 ^ 1061 ∧
        fdiv64 (f64 v.toInt 0) (f64 16384 0) = f64 v.toInt 14 ∧ (f64 v.toInt 14).units = v.toInt * 2 ^ 1060) ∧
    ∀ v : BitVec 14,
      fdiv64 (f64 v.toInt 0) (f64 4194304 0) = f64 v.toInt 22 ∧ (f64 v.toInt 22).units = v.toInt * 2 ^ 1052

/-! ## The multiply-accumulator and the output stages -/

/-- R121: the multiply-accumulator computes the source's formula exactly, scaled by 2^22; its value lies in the bounds of
the rule, for each `NEG_OFFSET`; the 40-bit register holds it without overflow, wrap or saturation. -/
def Obligations.MacComputesCompensatedValue : Prop :=
  ∀ (c : Coefs) (pr tr : BitVec 10),
    mac c pr tr =
        (c.b1.toInt * 512 + c.c12.toInt * tr.toNat) * pr.toNat + c.a0.toInt * 524288 + c.b2.toInt * tr.toNat * 256 ∧
      (mac c pr tr : ℚ) / 2 ^ 22 =
        ((c.b1.toInt : ℚ) / 2 ^ 13 + (c.c12.toInt : ℚ) / 2 ^ 22 * (tr.toNat : ℚ)) * (pr.toNat : ℚ) +
            (c.a0.toInt : ℚ) / 2 ^ 3 + (c.b2.toInt : ℚ) / 2 ^ 14 * (tr.toNat : ℚ) ∧
      -51497672704 ≤ mac c pr tr ∧ mac c pr tr ≤ 51495316223 ∧
      (c.inRange .off65535 → -51496362752 ≤ mac c pr tr) ∧
      (BitVec.ofInt 40 (mac c pr tr)).toInt = mac c pr tr

/-- R122: the source's formula evaluated in F64 in its written order gives the accumulator bit for bit, every
intermediate value is exact and a multiple of 2^-22 of magnitude below 2^14, and the order of the terms does not
change the result. -/
def Obligations.Binary64FormulaEqualsMac : Prop :=
  ∀ (c : Coefs) (pr tr : BitVec 10),
    let a0 := f64 c.a0.toInt 3
    let b1 := f64 c.b1.toInt 13
    let b2 := f64 c.b2.toInt 14
    let c12 := f64 c.c12.toInt 22
    let nPr := f64 pr.toNat 0
    let nTr := f64 tr.toNat 0
    let t1 := fmul64 c12 nTr
    let t2 := fadd64 b1 t1
    let t3 := fmul64 t2 nPr
    let t4 := fadd64 t3 a0
    let t5 := fmul64 b2 nTr
    let t6 := fadd64 t4 t5
    t6 = f64 (mac c pr tr) 22 ∧
      t6.units = mac c pr tr * 2 ^ 1052 ∧
      (∀ t ∈ [t1, t2, t3, t4, t5, t6],
        t.isFinite = true ∧ ∃ v : Int, t.units = v * 2 ^ 1052 ∧ -(2 ^ 36) < v ∧ v < 2 ^ 36) ∧
      fadd64 t1 b1 = t2 ∧
      ∀ p ∈ [(t3, a0, t5), (t3, t5, a0), (a0, t5, t3)],
        let (x, y, z) := p
        fadd64 (fadd64 x y) z = t6 ∧ fadd64 (fadd64 y x) z = t6 ∧ fadd64 z (fadd64 x y) = t6 ∧
          fadd64 z (fadd64 y x) = t6

/-- R123: the pressure stage: KP's pattern, the exact conversion of the accumulator, the formula in its written order, and
for every accumulator value a finite result in [-730.13, 830.10] that is never -0.0. -/
def Obligations.PressureStageInRange : Prop :=
  (fdiv64 (f64 65 0) (f64 1023 0)).bits = 0x3FB0441104411044#64 ∧
    ∀ (c : Coefs) (pr tr : BitVec 10),
      let m := mac c pr tr
      let p := fadd64 (fmul64 (f64 m 22) (fdiv64 (f64 65 0) (f64 1023 0))) (f64 50 0)
      pressureF64 m = p ∧
        (f64 m 22).units = m * 2 ^ 1052 ∧
        p.isFinite = true ∧ p.bits ≠ 0x8000000000000000#64 ∧
        -73013 * 2 ^ 1074 ≤ 100 * p.units ∧ 100 * p.units ≤ 83010 * 2 ^ 1074

/-- R123 read with rounding's monotony (the model's own consequence, no rule of the spec): a greater accumulator value
never gives a smaller pressure. -/
def Obligations.PressureStageIsMonotone : Prop :=
  ∀ m n : Int, -51497672704 ≤ m → m ≤ n → n ≤ 51495316223 → (pressureF64 m).units ≤ (pressureF64 n).units

/-- R124: COMPP with its three inputs writes the accumulator and the pressure, consumes both samples, answers OK and
changes nothing else; without one it faults as the rule orders and writes only `ERR`; with a payload it faults FRAME;
at once repeated it faults NO_RAW_T; the order of the two loads does not matter; all codes 0 give exactly 50.0; the rule's
example. -/
def Obligations.ComppCompensatesPressure : Prop :=
  (∀ (s : State) (c : Coefs) (pr tr : BitVec 10),
      s.coef = some c → s.rawT = some tr → s.rawP = some pr →
        ∃ (m : BitVec 40) (p : BitVec 64),
          exec .compp s =
              .next { s with
                pcomp := some m, presOut := some p, rawP := none, rawT := none
                responses := s.responses ++ [⟨.ok, none⟩] } ∧
            m.toInt =
              (c.b1.toInt * 2 ^ 9 + c.c12.toInt * tr.toNat) * pr.toNat + c.a0.toInt * 2 ^ 19 +
                c.b2.toInt * tr.toNat * 2 ^ 8 ∧
            (s.params.outArith = .binary64 →
              p = (fadd64 (fmul64 (f64 m.toInt 22) (fdiv64 (f64 65 0) (f64 1023 0))) (f64 50 0)).bits) ∧
            (s.params.outArith = .binary64 → c.a0 = 0 → c.b1 = 0 → c.b2 = 0 → c.c12 = 0 →
              m = 0 ∧ p = 0x4049000000000000#64) ∧
            exec .compp { s with
                pcomp := some m, presOut := some p, rawP := none, rawT := none
                responses := s.responses ++ [⟨.ok, none⟩] } =
              .next (faulted .noRawT { s with
                pcomp := some m, presOut := some p, rawP := none, rawT := none
                responses := s.responses ++ [⟨.ok, none⟩] })) ∧
    (∀ s : State, s.coef = none → exec .compp s = .next (faulted .noCoef s)) ∧
    (∀ s : State, s.coef ≠ none → s.rawT = none → exec .compp s = .next (faulted .noRawT s)) ∧
    (∀ s : State, s.coef ≠ none → s.rawT ≠ none → s.rawP = none → exec .compp s = .next (faulted .noRawP s)) ∧
    (∀ (s : State) (f : Frame) (ms : List HostMove),
      s.port = .deliver f :: ms → f.op = 0x10#8 → f.payload ≠ [] →
        step s = .next (faulted .frame { s with port := ms })) ∧
    (∀ (s : State) (ms : List HostMove),
      s.port = .deliver ⟨0x10#8, []⟩ :: ms → step s = exec .compp { s with port := ms }) ∧
    (∀ (s t t' u u' : State) (a b c d : Byte),
      exec (.ldrawp a b) s = .next t → exec (.ldrawt c d) t = .next u → exec (.ldrawt c d) s = .next t' →
        exec (.ldrawp a b) t' = .next u' → exec .compp u = exec .compp u') ∧
    (∃ t, exec .compp
          { State.reset with
            coef := some ⟨0x3ECE#16, 0xB3FA#16, 0xC518#16, 0x0CF2#14⟩, rawP := some 410#10, rawT := some 507#10 } =
        .next t ∧
      t.pcomp = some 0x00B752CE1C#40 ∧ t.presOut = some 0x405825EB100B02C0#64)

/-- R125: the temperature stage: KT's pattern, the exact conversion of `Tr - 498`, and the formula in its written order. -/
def Obligations.TemperatureStageFormula : Prop :=
  kT.bits = 0xC015666666666666#64 ∧
    ∀ tr : BitVec 10,
      (f64 ((tr.toNat : Int) - 498) 0).units = ((tr.toNat : Int) - 498) * 2 ^ 1074 ∧
        temperatureF64 tr = fadd64 (fdiv64 (f64 ((tr.toNat : Int) - 498) 0) kT) (f64 25 0)

/-- R126: over the 1024 counts the temperature falls strictly as Tr rises, from the pattern at 0 to the pattern at 1023;
at 498 the quotient is -0.0 and the result exactly 25.0; the output is never -0.0. -/
def Obligations.TemperatureFallsStrictly : Prop :=
  (∀ t u : BitVec 10, t.toNat < u.toNat → (temperatureF64 u).units < (temperatureF64 t).units) ∧
    (temperatureF64 0#10).bits = 0x405D856217ECDC1D#64 ∧
    (temperatureF64 1023#10).bits = 0xC052485FB37072D8#64 ∧
    (temperatureF64 498#10).bits = 0x4039000000000000#64 ∧
    (fdiv64 (f64 0 0) kT).bits = 0x8000000000000000#64 ∧
    ∀ t : BitVec 10, (temperatureF64 t).bits ≠ 0x8000000000000000#64 ∧ (temperatureF64 t).isFinite = true

/-- R127: for fixed register contents COMPP and COMPT give the same bits every time, whatever else the state holds, and with
binary64 arithmetic every output pattern is that of a finite value. -/
def Obligations.OutputsDeterministicAndFinite : Prop :=
  ∀ (s t : State) (c : Coefs) (pr tr : BitVec 10),
    s.params = t.params → s.coef = some c → t.coef = some c → s.rawT = some tr → t.rawT = some tr →
      (s.rawP = some pr → t.rawP = some pr →
        ∃ s' t', exec .compp s = .next s' ∧ exec .compp t = .next t' ∧ s'.pcomp = t'.pcomp ∧ s'.presOut = t'.presOut ∧
          (s.params.outArith = .binary64 → ∃ p, s'.presOut = some p ∧ (F64.ofBits p).isFinite = true)) ∧
        ∃ s' t', exec .compt s = .next s' ∧ exec .compt t = .next t' ∧ s'.tempOut = t'.tempOut ∧
          (s.params.outArith = .binary64 → ∃ p, s'.tempOut = some p ∧ (F64.ofBits p).isFinite = true)

/-- R128: under the opaque `OUT_ARITH` the pressure output depends on (mac, Tr) alone and the temperature output on Tr
alone, and `PCOMP` is the same exact code under either choice. -/
def Obligations.OpaqueArithmeticDependsOnInputsOnly : Prop :=
  (∀ (s t s' t' : State) (c d : Coefs) (pr qr tr : BitVec 10),
      s.params.outArith = .opaqueFunction → t.params.outArith = .opaqueFunction →
        s.coef = some c → t.coef = some d → s.rawP = some pr → t.rawP = some qr → s.rawT = some tr → t.rawT = some tr →
          mac c pr tr = mac d qr tr → exec .compp s = .next s' → exec .compp t = .next t' →
            s'.presOut = t'.presOut) ∧
    (∀ (s t s' t' : State) (tr : BitVec 10),
      s.params.outArith = .opaqueFunction → t.params.outArith = .opaqueFunction → s.coef ≠ none → t.coef ≠ none →
        s.rawT = some tr → t.rawT = some tr → exec .compt s = .next s' → exec .compt t = .next t' →
          s'.tempOut = t'.tempOut) ∧
    ∀ (s s' t' : State) (a : OutArith),
      exec .compp s = .next s' → exec .compp { s with params := { s.params with outArith := a } } = .next t' →
        s'.pcomp = t'.pcomp

/-- R129: no subnormal arises: a nonzero converted accumulator and its product with KP, a nonzero quotient, and both sums,
where nonzero, are normal, with the least magnitudes the rule gives (2^-22, 2^-26, 0.18, 2^-49). -/
def Obligations.NoSubnormalArises : Prop :=
  (∀ m : Int, -51497672704 ≤ m → m ≤ 51495316223 →
      (m ≠ 0 → 2 ^ 1052 ≤ |(f64 m 22).units| ∧ 2 ^ 1048 ≤ |(fmul64 (f64 m 22) kP).units|) ∧
        ((pressureF64 m).units ≠ 0 → 2 ^ 1025 ≤ |(pressureF64 m).units|)) ∧
    ∀ tr : BitVec 10,
      (tr.toNat ≠ 498 → 18 * 2 ^ 1074 < 100 * |(fdiv64 (f64 ((tr.toNat : Int) - 498) 0) kT).units|) ∧
        ((temperatureF64 tr).units ≠ 0 → 2 ^ 1025 ≤ |(temperatureF64 tr).units|)

/-- R130: COMPT with a coefficient set and a temperature count writes the temperature, consumes the count, answers OK and
changes nothing else; it faults NO_COEF, then NO_RAW_T; with a payload it faults FRAME; after COMPP it faults NO_RAW_T; the
results at the counts 498, 0 and 1023, the last two the greatest and the least; the rule's example. -/
def Obligations.ComptComputesTemperature : Prop :=
  (∀ (s : State) (tr : BitVec 10),
      s.coef ≠ none → s.rawT = some tr →
        ∃ v : BitVec 64,
          exec .compt s =
              .next { s with
                tempOut := some v, rawT := none, responses := s.responses ++ [⟨.ok, none⟩] } ∧
            (s.params.outArith = .binary64 →
              v = (fadd64 (fdiv64 (f64 ((tr.toNat : Int) - 498) 0) kT) (f64 25 0)).bits ∧
                (tr = 498#10 → v = 0x4039000000000000#64) ∧ (tr = 0#10 → v = 0x405D856217ECDC1D#64) ∧
                (tr = 1023#10 → v = 0xC052485FB37072D8#64))) ∧
    (∀ tr : BitVec 10,
      (temperatureF64 1023#10).units ≤ (temperatureF64 tr).units ∧
        (temperatureF64 tr).units ≤ (temperatureF64 0#10).units) ∧
    (∀ s : State, s.coef = none → exec .compt s = .next (faulted .noCoef s)) ∧
    (∀ s : State, s.coef ≠ none → s.rawT = none → exec .compt s = .next (faulted .noRawT s)) ∧
    (∀ (s : State) (f : Frame) (ms : List HostMove),
      s.port = .deliver f :: ms → f.op = 0x11#8 → f.payload ≠ [] →
        step s = .next (faulted .frame { s with port := ms })) ∧
    (∀ (s : State) (ms : List HostMove),
      s.port = .deliver ⟨0x11#8, []⟩ :: ms → step s = exec .compt { s with port := ms }) ∧
    (∀ s t : State, s.coef ≠ none → s.rawT ≠ none → s.rawP ≠ none → exec .compp s = .next t →
      exec .compt t = .next (faulted .noRawT t)) ∧
    (∃ t, exec .compt { State.reset with coef := some ⟨0, 0, 0, 0⟩, rawT := some 507#10 } = .next t ∧
      t.tempOut = some 0x4037515885FB3707#64)

/-! ## INVCOEF and RD -/

/-- R150: INVCOEF clears COEF_VALID, drops the four codes, answers OK and changes nothing else; on an invalid set it
changes nothing; a payload faults FRAME; after it the coefficient reads fault NO_DATA and COMPP faults NO_COEF. -/
def Obligations.InvcoefDropsCoefficients : Prop :=
  (∀ s : State, exec .invcoef s = .next { s with coef := none, responses := s.responses ++ [⟨.ok, none⟩] }) ∧
    (∀ s : State, s.coef = none → exec .invcoef s = .next { s with responses := s.responses ++ [⟨.ok, none⟩] }) ∧
    (∀ (s : State) (f : Frame) (ms : List HostMove),
      s.port = .deliver f :: ms → f.op = 0x20#8 → f.payload ≠ [] →
        step s = .next (faulted .frame { s with port := ms })) ∧
    (∀ (s : State) (ms : List HostMove),
      s.port = .deliver ⟨0x20#8, []⟩ :: ms → step s = exec .invcoef { s with port := ms }) ∧
    ∀ s t : State, exec .invcoef s = .next t →
      (∀ i ∈ [Instr.rdA0, .rdB1, .rdB2, .rdC12], exec i t = .next (faulted .noData t)) ∧
        exec .compp t = .next (faulted .noCoef t)

/-- R152, R34, r = 0: RD STATUS always answers the STATUS view and changes nothing; after reset it is 0x0000. -/
def Obligations.RdStatusAlwaysAnswers : Prop :=
  (∀ s : State,
      exec .rdStatus s = .next { s with responses := s.responses ++ [⟨.ok, some (.w16 (status s))⟩] }) ∧
    exec .rdStatus State.reset =
      .next { State.reset with responses := [⟨.ok, some (.w16 0x0000#16)⟩] }

/-- R152, R34, r = 1 to 4: with COEF_VALID = 1 each coefficient read answers the 16-bit value that is the code modulo
2^16 (C12 sign-extended from 14 bits) and changes nothing; with COEF_VALID = 0 it faults NO_DATA. -/
def Obligations.RdCoefficientsAnswer : Prop :=
  (∀ (s : State) (c : Coefs), s.coef = some c →
      ∃ a b d e : BitVec 16,
        exec .rdA0 s = .next { s with responses := s.responses ++ [⟨.ok, some (.w16 a)⟩] } ∧
        exec .rdB1 s = .next { s with responses := s.responses ++ [⟨.ok, some (.w16 b)⟩] } ∧
        exec .rdB2 s = .next { s with responses := s.responses ++ [⟨.ok, some (.w16 d)⟩] } ∧
        exec .rdC12 s = .next { s with responses := s.responses ++ [⟨.ok, some (.w16 e)⟩] } ∧
        (a.toNat : Int) = c.a0.toInt % 2 ^ 16 ∧ (b.toNat : Int) = c.b1.toInt % 2 ^ 16 ∧
        (d.toNat : Int) = c.b2.toInt % 2 ^ 16 ∧ (e.toNat : Int) = c.c12.toInt % 2 ^ 16) ∧
    ∀ s : State, s.coef = none →
      ∀ i ∈ [Instr.rdA0, .rdB1, .rdB2, .rdC12], exec i s = .next (faulted .noData s)

/-- R152, R34, R27, R28, r = 5 and 6: with its valid bit 1 each raw latch reads back zero-extended to 16 bits and is
not consumed; with its valid bit 0 the read faults NO_DATA. -/
def Obligations.RdRawLatchesAnswer : Prop :=
  (∀ (s : State) (v : BitVec 10), s.rawP = some v →
      ∃ a : BitVec 16, a.toNat = v.toNat ∧
        exec .rdRawP s = .next { s with responses := s.responses ++ [⟨.ok, some (.w16 a)⟩] }) ∧
    (∀ (s : State) (v : BitVec 10), s.rawT = some v →
      ∃ a : BitVec 16, a.toNat = v.toNat ∧
        exec .rdRawT s = .next { s with responses := s.responses ++ [⟨.ok, some (.w16 a)⟩] }) ∧
    (∀ s : State, s.rawP = none → exec .rdRawP s = .next (faulted .noData s)) ∧
    ∀ s : State, s.rawT = none → exec .rdRawT s = .next (faulted .noData s)

/-- R152, R34, r = 7 to 9: with its valid bit 1 each result register reads back whole, 40 or 64 bits, PCOMP as its code
modulo 2^40, and nothing changes; with its valid bit 0 the read faults NO_DATA. -/
def Obligations.RdResultsAnswer : Prop :=
  (∀ (s : State) (v : BitVec 40), s.pcomp = some v →
      ∃ a : BitVec 40, (a.toNat : Int) = v.toInt % 2 ^ 40 ∧
        exec .rdPcomp s = .next { s with responses := s.responses ++ [⟨.ok, some (.w40 a)⟩] }) ∧
    (∀ (s : State) (v : BitVec 64), s.presOut = some v →
      exec .rdPresOut s = .next { s with responses := s.responses ++ [⟨.ok, some (.w64 v)⟩] }) ∧
    (∀ (s : State) (v : BitVec 64), s.tempOut = some v →
      exec .rdTempOut s = .next { s with responses := s.responses ++ [⟨.ok, some (.w64 v)⟩] }) ∧
    (∀ s : State, s.pcomp = none → exec .rdPcomp s = .next (faulted .noData s)) ∧
    (∀ s : State, s.presOut = none → exec .rdPresOut s = .next (faulted .noData s)) ∧
    ∀ s : State, s.tempOut = none → exec .rdTempOut s = .next (faulted .noData s)

/-- R152: a coefficient reads back as the decoded value, not the loaded bytes: after LDCOEF at `NEG_OFFSET` = 65535 the
word read from A0, B1 or B2 is the loaded word, plus 1 modulo 2^16 where its bit 15 is set. -/
def Obligations.CoefficientReadsBackDecoded : Prop :=
  ∀ (s t : State) (p0 p1 p2 p3 p4 p5 p6 p7 : Byte),
    s.params.negOffset = .off65535 → exec (.ldcoef p0 p1 p2 p3 p4 p5 p6 p7) s = .next t →
      let read := fun m l : Byte => if 0x80#8 ≤ m then m ++ l + 1#16 else m ++ l
      register 1#4 t = some (.w16 (read p0 p1)) ∧ register 2#4 t = some (.w16 (read p2 p3)) ∧
        register 3#4 t = some (.w16 (read p4 p5))

/-! ## Status, errors and reset -/

/-- R33: every field of STATUS: the six valid bits, ERR in bits 10:8 with a legal value 0 to 6, and the hardwired zeros. -/
def Obligations.StatusFieldsAreTheFlags : Prop :=
  ∀ s : State,
    (status s).getLsbD 0 = s.coef.isSome ∧ (status s).getLsbD 1 = s.rawP.isSome ∧ (status s).getLsbD 2 = s.rawT.isSome ∧
      (status s).getLsbD 3 = s.pcomp.isSome ∧ (status s).getLsbD 4 = s.presOut.isSome ∧
      (status s).getLsbD 5 = s.tempOut.isSome ∧ (status s).extractLsb' 6 2 = 0#2 ∧
      (status s).extractLsb' 8 3 = s.err.bits ∧ ((status s).extractLsb' 8 3).toNat ≤ 6 ∧
      (status s).extractLsb' 11 5 = 0#5

/-- R171: the numbers of the codes. -/
def Obligations.ErrorCodesAreNumbered : Prop :=
  [Code.ok, .illegalOp, .frame, .noCoef, .noRawT, .noRawP, .noData].map (fun e => e.bits.toNat) = [0, 1, 2, 3, 4, 5, 6] ∧
    ∀ e : Code, e.bits.toNat ≠ 7

/-- R170: a faulted frame answers its code with no value, writes no register but `ERR`, which takes the code only if it was
0, and leaves the engine ready for the next frame; every frame has exactly one response. -/
def Obligations.FaultsArePrecise : Prop :=
  ∀ (s : State) (f : Frame) (ms : List HostMove), s.port = .deliver f :: ms →
    ∃ (t : State) (e : Code) (v : Option RdValue),
      step s = .next t ∧ t.responses = s.responses ++ [⟨e, v⟩] ∧
        (e ≠ .ok → v = none ∧ t = faulted e { s with port := ms }) ∧
        (e = .ok → t.err = s.err)

/-- R173, R171: the code of a frame's response is that of the first error that applies, in the rule's order, and OK
exactly where none applies. -/
def Obligations.FirstApplicableErrorReported : Prop :=
  ∀ (s : State) (f : Frame) (ms : List HostMove), s.port = .deliver f :: ms →
    ∃ (t : State) (v : Option RdValue),
      step s = .next t ∧ t.responses = s.responses ++ [⟨frameCode f s, v⟩]

/-- R32: `ERR` takes the code of a fault only where it was 0, keeps it against every later frame, and only reset
clears it. -/
def Obligations.FirstErrorIsSticky : Prop :=
  ∀ s t : State, step s = .next t →
    (∀ ms, s.port = .reset :: ms → t.err = .ok) ∧
      ((∀ ms, s.port ≠ .reset :: ms) → s.err ≠ .ok → t.err = s.err) ∧
      (∀ f ms, s.port = .deliver f :: ms → s.err = .ok → t.err = frameCode f s) ∧
      (s.port = [] → t.err = s.err) ∧
      (∀ a ms, s.port = .sensor a :: ms → t.err = s.err)

/-- R32, R55, R171, R175 over a whole sequence of frames: every frame is answered once, in order, a fault never stops the
engine, and `ERR` ends as the first non-zero code among the responses. -/
def Obligations.ErrIsFirstFaultOfSequence : Prop :=
  ∀ (s : State) (fs : List Frame) (ms : List HostMove),
    s.err = .ok → s.port = fs.map HostMove.deliver ++ ms →
      ∃ (t : State) (rs : List Response),
        Host.Core.run core fs.length s = .next t ∧ t.port = ms ∧ t.responses = s.responses ++ rs ∧
          rs.length = fs.length ∧ t.err = ((rs.map Response.code).find? (fun e => e ≠ .ok)).getD .ok

/-- R55, R59, R170, R175: the machine never stops; each step takes exactly the oldest move, in the order of delivery, and
each delivered frame adds exactly one response. Two parts are the model's choice: past the last move a step waits and is a
next state (log entry 4), and the parameters stand in the state and no step changes them (log entry 3). -/
def Obligations.MovesTakenInOrderForever : Prop :=
  ∀ (k : Nat) (s : State),
    ∃ (t : State) (rs : List Response),
      Host.Core.run core k s = .next t ∧ t.port = s.port.drop k ∧ t.responses = s.responses ++ rs ∧
        rs.length = ((s.port.take k).filter HostMove.isDelivery).length ∧ t.params = s.params

/-- R200, R39: reset, at power-on and whenever the host asserts it, leaves every valid bit 0, every register without a
value and `ERR` 0; it returns no response. -/
def Obligations.ResetClearsEveryRegister : Prop :=
  let cleared := fun t : State =>
    t.coef = none ∧ t.rawP = none ∧ t.rawT = none ∧ t.pcomp = none ∧ t.presOut = none ∧ t.tempOut = none ∧
      t.err = .ok ∧ status t = 0x0000#16
  cleared core.reset ∧
    ∀ (s : State) (ms : List HostMove), s.port = .reset :: ms →
      ∃ t : State, step s = .next t ∧ cleared t ∧ t.responses = s.responses

/-- R39: after reset every read but RD STATUS faults NO_DATA, COMPP and COMPT fault NO_COEF, and STATUS is 0x0000. -/
def Obligations.NothingReadableAfterReset : Prop :=
  (∀ i ∈ [Instr.rdA0, .rdB1, .rdB2, .rdC12, .rdRawP, .rdRawT, .rdPcomp, .rdPresOut, .rdTempOut],
      exec i State.reset = .next (faulted .noData State.reset)) ∧
    exec .compp State.reset = .next (faulted .noCoef State.reset) ∧
    exec .compt State.reset = .next (faulted .noCoef State.reset) ∧
    status State.reset = 0x0000#16 ∧ State.reset.params = ⟨.off65535, .binary64⟩

/-- R7, R20, R201: without a move of the host the engine changes nothing. -/
def Obligations.WaitsForTheHost : Prop :=
  ∀ s : State, s.port = [] → step s = .next s

/-- R60, R185, R202: whatever the host does with the sensor, its pins included, and however long it waits, the engine's
state does not change and nothing is answered. -/
def Obligations.SensorActionsChangeNothing : Prop :=
  ∀ (s : State) (a : SensorAction) (ms : List HostMove),
    s.port = .sensor a :: ms → step s = .next { s with port := ms }

/-! ## Rules over all operations -/

/-- R40, R22 to R32, R35: each register changes only at the moves its rule names as its writers. That the parameters of R8
stand in the state and no move changes them is the model's choice (log entry 3). -/
def Obligations.OnlyNamedWritersWrite : Prop :=
  ∀ (s t : State) (m : HostMove) (ms : List HostMove), s.port = m :: ms → step s = .next t →
    t.params = s.params ∧ t.port = ms ∧
      (t.coef ≠ s.coef → m = .reset ∨ m.loadsCoefs ∨ m.performs .invcoef) ∧
      (t.rawP ≠ s.rawP → m = .reset ∨ (∃ a b, m.performs (.ldrawp a b)) ∨ m.performs .compp) ∧
      (t.rawT ≠ s.rawT → m = .reset ∨ (∃ a b, m.performs (.ldrawt a b)) ∨ m.performs .compp ∨ m.performs .compt) ∧
      (t.pcomp ≠ s.pcomp → m = .reset ∨ m.performs .compp) ∧
      (t.presOut ≠ s.presOut → m = .reset ∨ m.performs .compp) ∧
      (t.tempOut ≠ s.tempOut → m = .reset ∨ m.performs .compt) ∧
      (t.err ≠ s.err → m = .reset ∨ ∃ f, m = .deliver f ∧ frameCode f s ≠ .ok)

/-- The invariant every step keeps, in every state (R22 to R24, R29 with R121, R30 with R123, R31 with R125): the
coefficient codes are values the decoder can give, the accumulator is within the multiply-accumulator's bounds,
`PCOMP` and `PRES_OUT` are valid together, and with binary64 arithmetic the outputs are those of the stages. -/
def Obligations.StepKeepsInvariant : Prop :=
  ∀ s t : State, Inv s → step s = .next t → Inv t

/-- The invariant holds after reset. -/
def Obligations.InvariantHoldsAtReset : Prop :=
  Inv State.reset

/-- R26, R185, R202, R212: nothing but LDCOEF, INVCOEF and reset changes the coefficient set, over any number of steps:
it survives every other frame, every fault and everything done to the sensor. -/
def Obligations.CoefficientsSurviveUntilInvalidated : Prop :=
  ∀ (k : Nat) (s t : State),
    (∀ m ∈ s.port.take k, m ≠ .reset ∧ ¬ m.loadsCoefs ∧ ¬ m.performs .invcoef) →
      Host.Core.run core k s = .next t → t.coef = s.coef

/-- R68: after INVCOEF, and after LDCOEF, no later operation reads the old coefficients: two machines that differ only in
the old set are equal from the step after it on, forever. -/
def Obligations.OldCoefficientsNeverReadAgain : Prop :=
  ∀ (s : State) (c d : Option Coefs) (m : HostMove) (ms : List HostMove) (k : Nat),
    m.performs .invcoef ∨ m.loadsCoefs →
      Host.Core.run core (k + 1) { s with coef := c, port := m :: ms } =
        Host.Core.run core (k + 1) { s with coef := d, port := m :: ms }

/-- R56: loads, INVCOEF and RD are idempotent: the same operation again leaves the same engine state; COMPP and COMPT
are not: right after a successful one the same operation faults NO_RAW_T. -/
def Obligations.OnlyComputesConsume : Prop :=
  (∀ (i : Instr) (s t u : State), i ≠ .compp → i ≠ .compt → exec i s = .next t → exec i t = .next u →
      { u with responses := t.responses } = t) ∧
    ∀ (i : Instr) (s t : State), i = .compp ∨ i = .compt → readiness i s = .ok → exec i s = .next t →
      exec i t = .next (faulted .noRawT t)

/-- R172, R64, R203: no value of any payload byte faults: from every state, LDCOEF, LDRAWP, LDRAWT and COMPP, in this
order with any bytes, all answer OK and leave the accumulator of exactly those bytes. -/
def Obligations.LoadedInputsAlwaysCompute : Prop :=
  ∀ (s : State) (a b c d e f g h pm pl tm tl : Byte) (ms : List HostMove),
    s.port = deliveries [.ldcoef a b c d e f g h, .ldrawp pm pl, .ldrawt tm tl, .compp] ++ ms →
      ∃ t : State,
        Host.Core.run core 4 s = .next t ∧
          t.responses = s.responses ++ [⟨.ok, none⟩, ⟨.ok, none⟩, ⟨.ok, none⟩, ⟨.ok, none⟩] ∧ t.err = s.err ∧ t.port = ms ∧
          ∃ m : BitVec 40, t.pcomp = some m ∧
            m.toInt =
              (dec s.params.negOffset c d * 2 ^ 9 + asr (dec s.params.negOffset g h) 2 * (raw tm tl).toNat) *
                    (raw pm pl).toNat +
                  dec s.params.negOffset a b * 2 ^ 19 + dec s.params.negOffset e f * (raw tm tl).toNat * 2 ^ 8

/-- R80: the pseudo-operations. With a coefficient set, PRESSURE and TEMPERATURE succeed and their last response is the
output computed from their bytes; RELOAD always succeeds and leaves the new set. -/
def Obligations.PseudoOperationsExpand : Prop :=
  (∀ (s : State) (c : Coefs) (pm pl tm tl : Byte) (ms : List HostMove),
      s.coef = some c → s.port = deliveries (Pseudo.pressure pm pl tm tl).expand ++ ms →
        ∃ (t : State) (rs : List Response),
          Host.Core.run core 4 s = .next t ∧ t.port = ms ∧ t.responses = s.responses ++ rs ∧ allSucceed rs = true ∧
            rs.getLast? =
              some ⟨.ok, some (.w64 (pressureOut s.params.outArith (mac c (raw pm pl) (raw tm tl)) (raw tm tl)))⟩) ∧
    (∀ (s : State) (c : Coefs) (tm tl : Byte) (ms : List HostMove),
      s.coef = some c → s.port = deliveries (Pseudo.temperature tm tl).expand ++ ms →
        ∃ (t : State) (rs : List Response),
          Host.Core.run core 3 s = .next t ∧ t.port = ms ∧ t.responses = s.responses ++ rs ∧ allSucceed rs = true ∧
            rs.getLast? = some ⟨.ok, some (.w64 (temperatureOut s.params.outArith (raw tm tl)))⟩) ∧
    ∀ (s : State) (a b c d e f g h : Byte) (ms : List HostMove),
      s.port = deliveries (Pseudo.reload a b c d e f g h).expand ++ ms →
        ∃ (t : State) (rs : List Response),
          Host.Core.run core 2 s = .next t ∧ t.port = ms ∧ t.responses = s.responses ++ rs ∧ allSucceed rs = true ∧
            t = { s with
              coef := some (coefsOf s.params.negOffset a b c d e f g h)
              port := ms
              responses := s.responses ++ rs }

/-! ## The host's side and the assembler -/

/-- R61, R62: the frame of a successful load transaction carries the received bytes unchanged under the command's code; a
failed one gives no frame; the trigger command is no engine operation. -/
def Obligations.SensorResponsesBecomeLoads : Prop :=
  (∀ a b c d e f g h : Byte,
      frameOfTransaction .readCoefficients (some [a, b, c, d, e, f, g, h]) = some (encode (.ldcoef a b c d e f g h))) ∧
    (∀ m l : Byte, frameOfTransaction .readRawPressure (some [m, l]) = some (encode (.ldrawp m l))) ∧
    (∀ m l : Byte, frameOfTransaction .readRawTemperature (some [m, l]) = some (encode (.ldrawt m l))) ∧
    (∀ c : SensorCommand, frameOfTransaction c none = none) ∧
    (∀ r, frameOfTransaction .initiateConversion r = none) ∧
    (∀ c : SensorCommand, ∀ op ∈ c.loadOp, c.sent = [op]) ∧
    ∀ p : List Byte, decode ⟨0x12#8, p⟩ = .error (.illegalOp 0x12#8)

/-- R63: a whole pressure reading completes from every engine state with `ERR` unchanged; coefficients are read only where
COEF_VALID is 0, and the last response is the pressure of the set in use and of exactly the sensor's raw bytes. -/
def Obligations.PressureReadingCompletes : Prop :=
  ∀ (s : State) (pins : List SensorPin) (w k : Nat) (a b c d e f g h pm pl tm tl : Byte) (ms : List HostMove),
    let moves := pressureReading ((status s).getLsbD 0) pins w k [a, b, c, d, e, f, g, h] [pm, pl] [tm, tl]
    let set := s.coef.getD (coefsOf s.params.negOffset a b c d e f g h)
    s.port = moves ++ ms →
      ∃ t : State,
        Host.Core.run core moves.length s = .next t ∧ t.port = ms ∧ t.err = s.err ∧ t.coef = some set ∧
          t.responses =
            s.responses ++ List.replicate (if s.coef = none then 4 else 3) ⟨.ok, none⟩ ++
              [⟨.ok, some (.w64 (pressureOut s.params.outArith (mac set (raw pm pl) (raw tm tl)) (raw tm tl)))⟩]

/-- R63: a whole temperature reading completes from every engine state with `ERR` and the raw pressure unchanged;
coefficients are read only where COEF_VALID is 0, and the last response is the temperature of exactly the sensor's raw bytes. -/
def Obligations.TemperatureReadingCompletes : Prop :=
  ∀ (s : State) (pins : List SensorPin) (w k : Nat) (a b c d e f g h tm tl : Byte) (ms : List HostMove),
    let moves := temperatureReading ((status s).getLsbD 0) pins w k [a, b, c, d, e, f, g, h] [tm, tl]
    s.port = moves ++ ms →
      ∃ t : State,
        Host.Core.run core moves.length s = .next t ∧ t.port = ms ∧ t.err = s.err ∧ t.rawP = s.rawP ∧
          t.coef = some (s.coef.getD (coefsOf s.params.negOffset a b c d e f g h)) ∧
          t.responses =
            s.responses ++ List.replicate (if s.coef = none then 3 else 2) ⟨.ok, none⟩ ++
              [⟨.ok, some (.w64 (temperatureOut s.params.outArith (raw tm tl)))⟩]

/-- R63, R64, R210, R211: from whatever the host knows of the sensor, a reading that releases the asserted pins meets
R64's musts exactly if the sensor was awake for `T_WAKE_MS` = 5 and the wait after the trigger was `T_CONV_MS` = 3 at
least. Reading both counts before loading either, in the other order, is the same (log entry 13); a load frame that no
transaction gave, or of another length than 8 or 2, breaks them. What `ERR` must be is R203's and no part of them (`BootMakesReadingsClear`). How the musts are read off the
moves, without the invalidate row's conditional one, is the model's choice (log entries 10, 13 and 14). -/
def Obligations.ReadingsMeetHostDuties : Prop :=
  (∀ (s : State) (v : SensorView) (pins : List SensorPin) (w k : Nat) (a b c d e f g h pm pl tm tl : Byte),
      (v.shutdown = true → SensorPin.shutdown ∈ pins) → (v.reset = true → SensorPin.reset ∈ pins) →
        let valid := (status s).getLsbD 0
        let cs := [a, b, c, d, e, f, g, h]
        let settled := 5 ≤ (if v.shutdown ∨ v.reset then w else v.awakeFor + w) ∧ 3 ≤ k
        (hostDutiesMet v s (pressureReading valid pins w k cs [pm, pl] [tm, tl]) = true ↔ settled) ∧
          (hostDutiesMet v s (temperatureReading valid pins w k cs [tm, tl]) = true ↔ settled) ∧
          (hostDutiesMet v s
              (readingSetup valid pins w k cs ++
                [.sensor (.transact .readRawPressure (some [pm, pl])),
                  .sensor (.transact .readRawTemperature (some [tm, tl]))] ++
                deliveries [.ldrawt tm tl, .ldrawp pm pl, .compp, .rdPresOut]) = true ↔
            settled)) ∧
    ∀ (s : State) (v : SensorView) (f : Frame) (ms : List HostMove),
      f.op ∈ [0x00#8, 0x02#8, 0x04#8] → f ∉ v.received ∨ f.payload.length ≠ Frame.payloadBytes f.op →
        hostDutiesMet v s (.deliver f :: ms) = false

/-- R203: from the boot on a reading meets the host's duties exactly if both settling windows are kept and the engine was
in a state with `ERR` = 0, or was reset first; after the reset it completes with `ERR` = 0 whatever the engine's state was,
on the coefficients it loads. How the duties are read off the moves is the model's choice (log entries 10, 13, 14 and 15). -/
def Obligations.BootMakesReadingsClear : Prop :=
  ∀ (s : State) (v : SensorView) (pins : List SensorPin) (w k : Nat) (a b c d e f g h pm pl tm tl : Byte),
    let cs := [a, b, c, d, e, f, g, h]
    let set := coefsOf s.params.negOffset a b c d e f g h
    let pressure := fun valid => pressureReading valid pins w k cs [pm, pl] [tm, tl]
    let temperature := fun valid => temperatureReading valid pins w k cs [tm, tl]
    ((v.shutdown = true → SensorPin.shutdown ∈ pins) → (v.reset = true → SensorPin.reset ∈ pins) →
        let settled := 5 ≤ (if v.shutdown ∨ v.reset then w else v.awakeFor + w) ∧ 3 ≤ k
        (bootDutiesMet v s (pressure ((status s).getLsbD 0)) = true ↔ s.err = .ok ∧ settled) ∧
          (bootDutiesMet v s (temperature ((status s).getLsbD 0)) = true ↔ s.err = .ok ∧ settled) ∧
          (bootDutiesMet v s (.reset :: pressure false) = true ↔ settled) ∧
          (bootDutiesMet v s (.reset :: temperature false) = true ↔ settled)) ∧
      (∀ ms : List HostMove, s.port = .reset :: pressure false ++ ms →
        ∃ t : State,
          Host.Core.run core ((pressure false).length + 1) s = .next t ∧ t.port = ms ∧ t.err = .ok ∧
            t.coef = some set ∧
            t.responses =
              s.responses ++ List.replicate 4 ⟨.ok, none⟩ ++
                [⟨.ok, some (.w64 (pressureOut s.params.outArith (mac set (raw pm pl) (raw tm tl)) (raw tm tl)))⟩]) ∧
      ∀ ms : List HostMove, s.port = .reset :: temperature false ++ ms →
        ∃ t : State,
          Host.Core.run core ((temperature false).length + 1) s = .next t ∧ t.port = ms ∧ t.err = .ok ∧
            t.coef = some set ∧
            t.responses =
              s.responses ++ List.replicate 3 ⟨.ok, none⟩ ++
                [⟨.ok, some (.w64 (temperatureOut s.params.outArith (raw tm tl)))⟩]

/-- R64, R172: a host that meets its duties never gets NO_COEF, NO_RAW_T or NO_RAW_P, and gets code 0 for every load,
compute, INVCOEF and RD STATUS it delivers. -/
def Obligations.DutifulHostGetsNoMissingInput : Prop :=
  ∀ (s : State) (v : SensorView) (ms : List HostMove), s.port = ms → hostDutiesMet v s ms = true →
    ∃ (t : State) (rs : List Response),
      Host.Core.run core ms.length s = .next t ∧ t.port = [] ∧ t.responses = s.responses ++ rs ∧
        (∀ r ∈ rs, r.code ∉ [Code.noCoef, .noRawT, .noRawP]) ∧
        ((∀ f, .deliver f ∈ ms →
            isLoadFrame f = true ∨ f ∈ [Instr.compp, .compt, .invcoef, .rdStatus].map encode) →
          allSucceed rs = true)

/-- R78: every operation's own text assembles to exactly that operation. -/
def Obligations.AssemblerReadsItsOwnText : Prop :=
  ∀ i : Instr, assembleLine (sourceLine i) = .ok [i]

/-- R78: how a line is read, blanks and a comment around it included: the mnemonic in capitals whatever its case, the
operands between the commas without the blanks around them; a line of blanks and a comment holds nothing. Which
characters are blank is log entry 12. -/
def Obligations.AssemblerSplitsLines : Prop :=
  ∀ before gap comment word : List Char,
    (∀ c ∈ before ++ gap, isBlank c = true) → (comment = [] ∨ ∃ cs, comment = ';' :: cs) →
      lineBody (before ++ comment) = [] ∧
        (word ≠ [] → (∀ c ∈ word, isBlank c = false ∧ c ≠ ';') →
          (lineWord (before ++ word ++ gap ++ comment) = word.map Char.toUpper ∧
              lineOperands (before ++ word ++ gap ++ comment) = []) ∧
            ∀ ops : List (List Char),
              gap ≠ [] → ops ≠ [] → ops.map trim ≠ [[]] → (∀ o ∈ ops, ',' ∉ o ∧ ';' ∉ o) →
                let line := before ++ word ++ gap ++ [','].intercalate ops ++ comment
                lineWord line = word.map Char.toUpper ∧ lineOperands line = ops.map trim)

/-- R78, R79, R80: what the assembler accepts, as the frames it gives. A line with the right number of byte literals is
exactly the frame of its opcode with these bytes, or the frames of the pseudo-operation's expansion; RD takes a register
name or a decimal index; a program is its lines one after the other. That a pseudo-operation is a line like any other is the
model's choice (log entry 12). -/
def Obligations.AssemblerEncodesItsOperands : Prop :=
  (∀ (cs : List Char) (ns : List Nat),
      (lineOperands cs).map numeral = ns.map some → (∀ n ∈ ns, n ≤ 255) →
        let bs : List Byte := ns.map (BitVec.ofNat 8)
        (∀ e ∈ [("LDCOEF", 8, 0x04#8), ("LDRAWP", 2, 0x00#8), ("LDRAWT", 2, 0x02#8), ("COMPP", 0, 0x10#8),
              ("COMPT", 0, 0x11#8), ("INVCOEF", 0, 0x20#8)],
            lineWord cs = e.1.toList → ns.length = e.2.1 →
              ∃ i, assembleLine cs = .ok [i] ∧ encode i = ⟨e.2.2, bs⟩) ∧
          (∀ pm pl tm tl : Byte, lineWord cs = "PRESSURE".toList → bs = [pm, pl, tm, tl] →
            ∃ is, assembleLine cs = .ok is ∧
              is.map encode = [⟨0x00#8, [pm, pl]⟩, ⟨0x02#8, [tm, tl]⟩, ⟨0x10#8, []⟩, ⟨0x38#8, []⟩]) ∧
          (lineWord cs = "TEMPERATURE".toList → ns.length = 2 →
            ∃ is, assembleLine cs = .ok is ∧ is.map encode = [⟨0x02#8, bs⟩, ⟨0x11#8, []⟩, ⟨0x39#8, []⟩]) ∧
          (lineWord cs = "RELOAD".toList → ns.length = 8 →
            ∃ is, assembleLine cs = .ok is ∧ is.map encode = [⟨0x20#8, []⟩, ⟨0x04#8, bs⟩])) ∧
    (∀ (cs r : List Char) (n : Nat),
      lineWord cs = "RD".toList → lineOperands cs = [r] →
        n ≤ 9 ∧ numeralIn 10 r = some n ∨
            (n, String.ofList r) ∈ [(0, "STATUS"), (1, "A0"), (2, "B1"), (3, "B2"), (4, "C12"), (5, "RAW_P"), (6, "RAW_T"),
              (7, "PCOMP"), (8, "PRES_OUT"), (9, "TEMP_OUT")] →
          ∃ i, assembleLine cs = .ok [i] ∧ encode i = ⟨BitVec.ofNat 8 (0x30 + n), []⟩) ∧
    ∀ (n : Nat) (ls : List (List Char)) (is : List Instr),
      assembleLines n ls = .ok is ↔ ∃ parts : List (List Instr), ls.map assembleLine = parts.map .ok ∧ is = parts.flatten

/-- R79: every line whose first word is no mnemonic, whose operand count is wrong, whose first operand that is not a byte is
a literal above 255, or whose RD index is above 9 is refused by that name; whatever line is accepted has none of these
faults; and a program is refused by the line of its first refused operation. Which reason is given where several
apply, the count before the operands and these from left to right, and that lines count from the number given (1 for a
program), is the model's choice (log entry 12). -/
def Obligations.AssemblerRefusesByNameAndLine : Prop :=
  (∀ cs : List Char, lineBody cs ≠ [] → (∀ e ∈ mnemonics, e.1 ≠ lineWord cs) →
      assembleLine cs = .error .unknownMnemonic) ∧
    (∀ (cs : List Char), ∀ e ∈ mnemonics, lineWord cs = e.1 → (lineOperands cs).length ≠ e.2.operandCount →
      assembleLine cs = .error .operandCount) ∧
    (∀ (cs bad : List Char) (good rest : List (List Char)) (n : Nat), ∀ e ∈ mnemonics,
      lineWord cs = e.1 → e.2 ≠ .rd → (lineOperands cs).length = e.2.operandCount →
        lineOperands cs = good ++ bad :: rest → (∀ o ∈ good, ∃ m, numeral o = some m ∧ m ≤ 255) →
          numeral bad = some n → 255 < n → assembleLine cs = .error .byteRange) ∧
    (∀ (cs r : List Char) (n : Nat),
      lineWord cs = ['R', 'D'] → lineOperands cs = [r] → numeralIn 10 r = some n → 9 < n →
        assembleLine cs = .error .rdIndex) ∧
    (∀ (cs : List Char) (is : List Instr), assembleLine cs = .ok is →
      lineBody cs = [] ∧ is = [] ∨
        ∃ e ∈ mnemonics, lineWord cs = e.1 ∧ (lineOperands cs).length = e.2.operandCount ∧
          ∀ o ∈ lineOperands cs,
            if e.2 = .rd then (∃ r ∈ registerNames, r.1 = o) ∨ ∃ n, numeralIn 10 o = some n ∧ n ≤ 9
            else ∃ n, numeral o = some n ∧ n ≤ 255) ∧
    ∀ (n : Nat) (good rest : List (List Char)) (bad : List Char) (r : AsmReason),
      (∀ l ∈ good, ∃ is, assembleLine l = .ok is) → assembleLine bad = .error r →
        assembleLines n (good ++ bad :: rest) = .error ⟨n + good.length, r⟩
end

