-- ==== Sys2Proof/Laws/State.lean ====
section
/-! SUPPORT. One lemma per field per named update of the state (Sys2Proof/Machine/Ops.lean): no proof unfolds an update. -/

namespace Sys2Proof.Machine

variable (s : State)

/-! `State.setCoef` -/

@[simp] theorem State.setCoef_params (c : Option Coefs) : (s.setCoef c).params = s.params := rfl
@[simp] theorem State.setCoef_coef (c : Option Coefs) : (s.setCoef c).coef = c := rfl
@[simp] theorem State.setCoef_rawP (c : Option Coefs) : (s.setCoef c).rawP = s.rawP := rfl
@[simp] theorem State.setCoef_rawT (c : Option Coefs) : (s.setCoef c).rawT = s.rawT := rfl
@[simp] theorem State.setCoef_pcomp (c : Option Coefs) : (s.setCoef c).pcomp = s.pcomp := rfl
@[simp] theorem State.setCoef_presOut (c : Option Coefs) : (s.setCoef c).presOut = s.presOut := rfl
@[simp] theorem State.setCoef_tempOut (c : Option Coefs) : (s.setCoef c).tempOut = s.tempOut := rfl
@[simp] theorem State.setCoef_err (c : Option Coefs) : (s.setCoef c).err = s.err := rfl
@[simp] theorem State.setCoef_port (c : Option Coefs) : (s.setCoef c).port = s.port := rfl
@[simp] theorem State.setCoef_responses (c : Option Coefs) : (s.setCoef c).responses = s.responses := rfl

/-! `State.setRawP` -/

@[simp] theorem State.setRawP_params (v : Option (BitVec 10)) : (s.setRawP v).params = s.params := rfl
@[simp] theorem State.setRawP_coef (v : Option (BitVec 10)) : (s.setRawP v).coef = s.coef := rfl
@[simp] theorem State.setRawP_rawP (v : Option (BitVec 10)) : (s.setRawP v).rawP = v := rfl
@[simp] theorem State.setRawP_rawT (v : Option (BitVec 10)) : (s.setRawP v).rawT = s.rawT := rfl
@[simp] theorem State.setRawP_pcomp (v : Option (BitVec 10)) : (s.setRawP v).pcomp = s.pcomp := rfl
@[simp] theorem State.setRawP_presOut (v : Option (BitVec 10)) : (s.setRawP v).presOut = s.presOut := rfl
@[simp] theorem State.setRawP_tempOut (v : Option (BitVec 10)) : (s.setRawP v).tempOut = s.tempOut := rfl
@[simp] theorem State.setRawP_err (v : Option (BitVec 10)) : (s.setRawP v).err = s.err := rfl
@[simp] theorem State.setRawP_port (v : Option (BitVec 10)) : (s.setRawP v).port = s.port := rfl
@[simp] theorem State.setRawP_responses (v : Option (BitVec 10)) : (s.setRawP v).responses = s.responses := rfl

/-! `State.setRawT` -/

@[simp] theorem State.setRawT_params (v : Option (BitVec 10)) : (s.setRawT v).params = s.params := rfl
@[simp] theorem State.setRawT_coef (v : Option (BitVec 10)) : (s.setRawT v).coef = s.coef := rfl
@[simp] theorem State.setRawT_rawP (v : Option (BitVec 10)) : (s.setRawT v).rawP = s.rawP := rfl
@[simp] theorem State.setRawT_rawT (v : Option (BitVec 10)) : (s.setRawT v).rawT = v := rfl
@[simp] theorem State.setRawT_pcomp (v : Option (BitVec 10)) : (s.setRawT v).pcomp = s.pcomp := rfl
@[simp] theorem State.setRawT_presOut (v : Option (BitVec 10)) : (s.setRawT v).presOut = s.presOut := rfl
@[simp] theorem State.setRawT_tempOut (v : Option (BitVec 10)) : (s.setRawT v).tempOut = s.tempOut := rfl
@[simp] theorem State.setRawT_err (v : Option (BitVec 10)) : (s.setRawT v).err = s.err := rfl
@[simp] theorem State.setRawT_port (v : Option (BitVec 10)) : (s.setRawT v).port = s.port := rfl
@[simp] theorem State.setRawT_responses (v : Option (BitVec 10)) : (s.setRawT v).responses = s.responses := rfl

/-! `State.setPcomp` -/

@[simp] theorem State.setPcomp_params (v : BitVec 40) : (s.setPcomp v).params = s.params := rfl
@[simp] theorem State.setPcomp_coef (v : BitVec 40) : (s.setPcomp v).coef = s.coef := rfl
@[simp] theorem State.setPcomp_rawP (v : BitVec 40) : (s.setPcomp v).rawP = s.rawP := rfl
@[simp] theorem State.setPcomp_rawT (v : BitVec 40) : (s.setPcomp v).rawT = s.rawT := rfl
@[simp] theorem State.setPcomp_pcomp (v : BitVec 40) : (s.setPcomp v).pcomp = some v := rfl
@[simp] theorem State.setPcomp_presOut (v : BitVec 40) : (s.setPcomp v).presOut = s.presOut := rfl
@[simp] theorem State.setPcomp_tempOut (v : BitVec 40) : (s.setPcomp v).tempOut = s.tempOut := rfl
@[simp] theorem State.setPcomp_err (v : BitVec 40) : (s.setPcomp v).err = s.err := rfl
@[simp] theorem State.setPcomp_port (v : BitVec 40) : (s.setPcomp v).port = s.port := rfl
@[simp] theorem State.setPcomp_responses (v : BitVec 40) : (s.setPcomp v).responses = s.responses := rfl

/-! `State.setPresOut` -/

@[simp] theorem State.setPresOut_params (v : BitVec 64) : (s.setPresOut v).params = s.params := rfl
@[simp] theorem State.setPresOut_coef (v : BitVec 64) : (s.setPresOut v).coef = s.coef := rfl
@[simp] theorem State.setPresOut_rawP (v : BitVec 64) : (s.setPresOut v).rawP = s.rawP := rfl
@[simp] theorem State.setPresOut_rawT (v : BitVec 64) : (s.setPresOut v).rawT = s.rawT := rfl
@[simp] theorem State.setPresOut_pcomp (v : BitVec 64) : (s.setPresOut v).pcomp = s.pcomp := rfl
@[simp] theorem State.setPresOut_presOut (v : BitVec 64) : (s.setPresOut v).presOut = some v := rfl
@[simp] theorem State.setPresOut_tempOut (v : BitVec 64) : (s.setPresOut v).tempOut = s.tempOut := rfl
@[simp] theorem State.setPresOut_err (v : BitVec 64) : (s.setPresOut v).err = s.err := rfl
@[simp] theorem State.setPresOut_port (v : BitVec 64) : (s.setPresOut v).port = s.port := rfl
@[simp] theorem State.setPresOut_responses (v : BitVec 64) : (s.setPresOut v).responses = s.responses := rfl

/-! `State.setTempOut` -/

@[simp] theorem State.setTempOut_params (v : BitVec 64) : (s.setTempOut v).params = s.params := rfl
@[simp] theorem State.setTempOut_coef (v : BitVec 64) : (s.setTempOut v).coef = s.coef := rfl
@[simp] theorem State.setTempOut_rawP (v : BitVec 64) : (s.setTempOut v).rawP = s.rawP := rfl
@[simp] theorem State.setTempOut_rawT (v : BitVec 64) : (s.setTempOut v).rawT = s.rawT := rfl
@[simp] theorem State.setTempOut_pcomp (v : BitVec 64) : (s.setTempOut v).pcomp = s.pcomp := rfl
@[simp] theorem State.setTempOut_presOut (v : BitVec 64) : (s.setTempOut v).presOut = s.presOut := rfl
@[simp] theorem State.setTempOut_tempOut (v : BitVec 64) : (s.setTempOut v).tempOut = some v := rfl
@[simp] theorem State.setTempOut_err (v : BitVec 64) : (s.setTempOut v).err = s.err := rfl
@[simp] theorem State.setTempOut_port (v : BitVec 64) : (s.setTempOut v).port = s.port := rfl
@[simp] theorem State.setTempOut_responses (v : BitVec 64) : (s.setTempOut v).responses = s.responses := rfl

/-! `State.recordErr` -/

@[simp] theorem State.recordErr_params (e : Code) : (s.recordErr e).params = s.params := rfl
@[simp] theorem State.recordErr_coef (e : Code) : (s.recordErr e).coef = s.coef := rfl
@[simp] theorem State.recordErr_rawP (e : Code) : (s.recordErr e).rawP = s.rawP := rfl
@[simp] theorem State.recordErr_rawT (e : Code) : (s.recordErr e).rawT = s.rawT := rfl
@[simp] theorem State.recordErr_pcomp (e : Code) : (s.recordErr e).pcomp = s.pcomp := rfl
@[simp] theorem State.recordErr_presOut (e : Code) : (s.recordErr e).presOut = s.presOut := rfl
@[simp] theorem State.recordErr_tempOut (e : Code) : (s.recordErr e).tempOut = s.tempOut := rfl
@[simp] theorem State.recordErr_err (e : Code) : (s.recordErr e).err = if s.err = .ok then e else s.err := rfl
@[simp] theorem State.recordErr_port (e : Code) : (s.recordErr e).port = s.port := rfl
@[simp] theorem State.recordErr_responses (e : Code) : (s.recordErr e).responses = s.responses := rfl

/-! `State.respond` -/

@[simp] theorem State.respond_params (e : Code) (v : Option RdValue) : (s.respond e v).params = s.params := rfl
@[simp] theorem State.respond_coef (e : Code) (v : Option RdValue) : (s.respond e v).coef = s.coef := rfl
@[simp] theorem State.respond_rawP (e : Code) (v : Option RdValue) : (s.respond e v).rawP = s.rawP := rfl
@[simp] theorem State.respond_rawT (e : Code) (v : Option RdValue) : (s.respond e v).rawT = s.rawT := rfl
@[simp] theorem State.respond_pcomp (e : Code) (v : Option RdValue) : (s.respond e v).pcomp = s.pcomp := rfl
@[simp] theorem State.respond_presOut (e : Code) (v : Option RdValue) : (s.respond e v).presOut = s.presOut := rfl
@[simp] theorem State.respond_tempOut (e : Code) (v : Option RdValue) : (s.respond e v).tempOut = s.tempOut := rfl
@[simp] theorem State.respond_err (e : Code) (v : Option RdValue) : (s.respond e v).err = s.err := rfl
@[simp] theorem State.respond_port (e : Code) (v : Option RdValue) : (s.respond e v).port = s.port := rfl
@[simp] theorem State.respond_responses (e : Code) (v : Option RdValue) : (s.respond e v).responses = s.responses ++ [⟨e, v⟩] := rfl

/-! `State.setPort` -/

@[simp] theorem State.setPort_params (ms : List HostMove) : (s.setPort ms).params = s.params := rfl
@[simp] theorem State.setPort_coef (ms : List HostMove) : (s.setPort ms).coef = s.coef := rfl
@[simp] theorem State.setPort_rawP (ms : List HostMove) : (s.setPort ms).rawP = s.rawP := rfl
@[simp] theorem State.setPort_rawT (ms : List HostMove) : (s.setPort ms).rawT = s.rawT := rfl
@[simp] theorem State.setPort_pcomp (ms : List HostMove) : (s.setPort ms).pcomp = s.pcomp := rfl
@[simp] theorem State.setPort_presOut (ms : List HostMove) : (s.setPort ms).presOut = s.presOut := rfl
@[simp] theorem State.setPort_tempOut (ms : List HostMove) : (s.setPort ms).tempOut = s.tempOut := rfl
@[simp] theorem State.setPort_err (ms : List HostMove) : (s.setPort ms).err = s.err := rfl
@[simp] theorem State.setPort_port (ms : List HostMove) : (s.setPort ms).port = ms := rfl
@[simp] theorem State.setPort_responses (ms : List HostMove) : (s.setPort ms).responses = s.responses := rfl

/-! `State.engineReset` -/

@[simp] theorem State.engineReset_params : s.engineReset.params = s.params := rfl
@[simp] theorem State.engineReset_coef : s.engineReset.coef = none := rfl
@[simp] theorem State.engineReset_rawP : s.engineReset.rawP = none := rfl
@[simp] theorem State.engineReset_rawT : s.engineReset.rawT = none := rfl
@[simp] theorem State.engineReset_pcomp : s.engineReset.pcomp = none := rfl
@[simp] theorem State.engineReset_presOut : s.engineReset.presOut = none := rfl
@[simp] theorem State.engineReset_tempOut : s.engineReset.tempOut = none := rfl
@[simp] theorem State.engineReset_err : s.engineReset.err = .ok := rfl
@[simp] theorem State.engineReset_port : s.engineReset.port = s.port := rfl
@[simp] theorem State.engineReset_responses : s.engineReset.responses = s.responses := rfl

end Sys2Proof.Machine
end

