-- ==== Sys2Proof/Laws/Exec.lean ====
section
/-! SUPPORT. What each shared operation and `exec` can do, said once (Sys2Proof/Machine/Ops.lean, Dispatch.lean): provers cite
these instead of unfolding a meaning. -/

namespace Sys2Proof.Machine

/-! The fault mechanism and the two ways to respond. -/

theorem raise_eq (e : Code) (s : State) : raise e s = .next (faulted e s) := rfl

theorem complete_eq (s : State) :
    complete s = .next { s with responses := s.responses ++ [⟨.ok, none⟩] } := rfl

theorem answer_some (v : RdValue) (s : State) :
    answer (some v) s = .next { s with responses := s.responses ++ [⟨.ok, some v⟩] } := rfl

theorem answer_none (s : State) : answer none s = .next (faulted .noData s) := rfl

/-- RD's shared operation, as one equation. -/
theorem answer_eq (v : Option RdValue) (s : State) :
    answer v s =
      if v = none then .next (faulted .noData s)
      else .next { s with responses := s.responses ++ [⟨.ok, v⟩] } := by
  cases v <;> rfl

@[simp] theorem faulted_params (e : Code) (s : State) : (faulted e s).params = s.params := rfl
@[simp] theorem faulted_coef (e : Code) (s : State) : (faulted e s).coef = s.coef := rfl
@[simp] theorem faulted_rawP (e : Code) (s : State) : (faulted e s).rawP = s.rawP := rfl
@[simp] theorem faulted_rawT (e : Code) (s : State) : (faulted e s).rawT = s.rawT := rfl
@[simp] theorem faulted_pcomp (e : Code) (s : State) : (faulted e s).pcomp = s.pcomp := rfl
@[simp] theorem faulted_presOut (e : Code) (s : State) : (faulted e s).presOut = s.presOut := rfl
@[simp] theorem faulted_tempOut (e : Code) (s : State) : (faulted e s).tempOut = s.tempOut := rfl
@[simp] theorem faulted_port (e : Code) (s : State) : (faulted e s).port = s.port := rfl
@[simp] theorem faulted_err (e : Code) (s : State) :
    (faulted e s).err = if s.err = .ok then e else s.err := rfl
@[simp] theorem faulted_responses (e : Code) (s : State) :
    (faulted e s).responses = s.responses ++ [⟨e, none⟩] := rfl

/-! The register index space (R34). -/

@[simp] theorem register_0 (s : State) : register 0#4 s = some (.w16 (status s)) := rfl
@[simp] theorem register_1 (s : State) : register 1#4 s = s.coef.map fun c => .w16 c.a0 := rfl
@[simp] theorem register_2 (s : State) : register 2#4 s = s.coef.map fun c => .w16 c.b1 := rfl
@[simp] theorem register_3 (s : State) : register 3#4 s = s.coef.map fun c => .w16 c.b2 := rfl
@[simp] theorem register_4 (s : State) :
    register 4#4 s = s.coef.map fun c => .w16 (c.c12.signExtend 16) := rfl
@[simp] theorem register_5 (s : State) : register 5#4 s = s.rawP.map fun v => .w16 (v.setWidth 16) := rfl
@[simp] theorem register_6 (s : State) : register 6#4 s = s.rawT.map fun v => .w16 (v.setWidth 16) := rfl
@[simp] theorem register_7 (s : State) : register 7#4 s = s.pcomp.map .w40 := rfl
@[simp] theorem register_8 (s : State) : register 8#4 s = s.presOut.map .w64 := rfl
@[simp] theorem register_9 (s : State) : register 9#4 s = s.tempOut.map .w64 := rfl

/-! The two computes, case by case (R124, R130). -/

theorem execCompp_eq (s : State) :
    execCompp s =
      match s.coef, s.rawT, s.rawP with
      | some c, some tr, some pr => complete (compensatePressure c pr tr s)
      | _, _, _ => .next (faulted (readiness .compp s) s) := by
  unfold execCompp readiness
  cases s.coef <;> cases s.rawT <;> cases s.rawP <;> rfl

theorem execCompt_eq (s : State) :
    execCompt s =
      match s.coef, s.rawT with
      | some _, some tr => complete (compensateTemperature tr s)
      | _, _ => .next (faulted (readiness .compt s) s) := by
  unfold execCompt readiness
  cases s.coef <;> cases s.rawT <;> rfl

/-! `exec` as a whole. -/

/-- An operation whose precondition fails faults with that precondition's code and does nothing else. -/
theorem exec_of_not_ready {i : Instr} {s : State} (h : readiness i s ≠ .ok) :
    exec i s = .next (faulted (readiness i s) s) := by
  cases i
  case compp =>
    rw [exec, execCompp_eq]
    revert h
    unfold readiness
    cases s.coef <;> cases s.rawT <;> cases s.rawP <;> simp
  case compt =>
    rw [exec, execCompt_eq]
    revert h
    unfold readiness
    cases s.coef <;> cases s.rawT <;> simp
  case ldrawp => exact absurd rfl h
  case ldrawt => exact absurd rfl h
  case ldcoef => exact absurd rfl h
  case invcoef => exact absurd rfl h
  case rdStatus => exact absurd rfl h
  all_goals
    simp only [readiness] at h ⊢
    split_ifs at h ⊢ <;>
      simp_all [exec, execRdA0, execRdB1, execRdB2, execRdC12, execRdRawP, execRdRawT, execRdPcomp, execRdPresOut,
        execRdTempOut, answer_none]

/-- An operation whose preconditions hold answers OK and leaves `ERR`, the parameters and the port alone. -/
theorem exec_of_ready {i : Instr} {s : State} (h : readiness i s = .ok) :
    ∃ t v, exec i s = .next t ∧ t.responses = s.responses ++ [⟨.ok, v⟩] ∧ t.err = s.err ∧ t.port = s.port ∧
      t.params = s.params := by
  cases i
  case compp =>
    simp only [exec, execCompp]
    revert h
    unfold readiness
    cases s.coef <;> cases s.rawT <;> cases s.rawP <;> simp [complete, compensatePressure]
  case compt =>
    simp only [exec, execCompt]
    revert h
    unfold readiness
    cases s.coef <;> cases s.rawT <;> simp [complete, compensateTemperature]
  case rdStatus => exact ⟨_, _, rfl, rfl, rfl, rfl, rfl⟩
  case ldrawp => exact ⟨_, _, rfl, rfl, rfl, rfl, rfl⟩
  case ldrawt => exact ⟨_, _, rfl, rfl, rfl, rfl, rfl⟩
  case ldcoef => exact ⟨_, _, rfl, rfl, rfl, rfl, rfl⟩
  case invcoef => exact ⟨_, _, rfl, rfl, rfl, rfl, rfl⟩
  all_goals
    simp only [readiness] at h
    split_ifs at h with hn
    obtain ⟨v, hv⟩ := Option.ne_none_iff_exists'.mp hn
    simp [exec, execRdA0, execRdB1, execRdB2, execRdC12, execRdRawP, execRdRawT, execRdPcomp, execRdPresOut,
      execRdTempOut, answer_some, hv]

/-- Everything a successful operation can do, by its writers (R40): the inversion of `exec`. -/
theorem exec_cases {i : Instr} {s t : State} (h : exec i s = .next t) :
    (readiness i s ≠ .ok ∧ t = faulted (readiness i s) s) ∨
      (readiness i s = .ok ∧ ∃ v,
        ((∃ m l, i = .ldrawp m l ∧ t = (s.setRawP (some (raw m l))).respond .ok v) ∨
          (∃ m l, i = .ldrawt m l ∧ t = (s.setRawT (some (raw m l))).respond .ok v) ∨
          (∃ p0 p1 p2 p3 p4 p5 p6 p7, i = .ldcoef p0 p1 p2 p3 p4 p5 p6 p7 ∧
            t = (s.setCoef (some (coefsOf s.params.negOffset p0 p1 p2 p3 p4 p5 p6 p7))).respond .ok v) ∨
          (i = .compp ∧ ∃ c pr tr, s.coef = some c ∧ s.rawP = some pr ∧ s.rawT = some tr ∧
            t = (compensatePressure c pr tr s).respond .ok v) ∨
          (i = .compt ∧ ∃ tr, s.coef ≠ none ∧ s.rawT = some tr ∧
            t = (compensateTemperature tr s).respond .ok v) ∨
          (i = .invcoef ∧ t = (s.setCoef none).respond .ok v) ∨
          (i ≠ .compp ∧ i ≠ .compt ∧ t = s.respond .ok v))) := by
  by_cases hr : readiness i s = .ok
  · refine .inr ⟨hr, ?_⟩
    cases i
    case ldrawp => cases h; exact ⟨none, .inl ⟨_, _, rfl, rfl⟩⟩
    case ldrawt => cases h; exact ⟨none, .inr <| .inl ⟨_, _, rfl, rfl⟩⟩
    case ldcoef => cases h; exact ⟨none, .inr <| .inr <| .inl ⟨_, _, _, _, _, _, _, _, rfl, rfl⟩⟩
    case invcoef => cases h; exact ⟨none, .inr <| .inr <| .inr <| .inr <| .inr <| .inl ⟨rfl, rfl⟩⟩
    case rdStatus => cases h; exact ⟨_, .inr <| .inr <| .inr <| .inr <| .inr <| .inr ⟨by simp, by simp, rfl⟩⟩
    case compp =>
      refine ⟨none, .inr <| .inr <| .inr <| .inl ⟨rfl, ?_⟩⟩
      rw [exec, execCompp_eq] at h
      revert hr h
      unfold readiness
      rcases s.coef with _ | c <;> rcases s.rawT with _ | tr <;> rcases s.rawP with _ | pr <;> simp [complete]
      rintro rfl; rfl
    case compt =>
      refine ⟨none, .inr <| .inr <| .inr <| .inr <| .inl ⟨rfl, ?_⟩⟩
      rw [exec, execCompt_eq] at h
      revert hr h
      unfold readiness
      rcases s.coef with _ | c <;> rcases s.rawT with _ | tr <;> simp [complete]
      rintro rfl; rfl
    all_goals
      simp only [readiness] at hr
      split_ifs at hr with hn
      obtain ⟨v, hv⟩ := Option.ne_none_iff_exists'.mp hn
      simp [exec, execRdA0, execRdB1, execRdB2, execRdC12, execRdRawP, execRdRawT, execRdPcomp, execRdPresOut,
        execRdTempOut, answer, hv] at h
      exact ⟨_, .inr <| .inr <| .inr <| .inr <| .inr <| .inr ⟨by simp, by simp, h.symm⟩⟩
  · left
    rw [exec_of_not_ready hr] at h
    cases h
    exact ⟨hr, rfl⟩

/-- `exec` always answers a next state: no operation stops the machine (R174, R175). -/
theorem exec_answers (i : Instr) (s : State) : ∃ t, exec i s = .next t := by
  by_cases h : readiness i s = .ok
  · obtain ⟨t, _, ht, _⟩ := exec_of_ready h
    exact ⟨t, ht⟩
  · exact ⟨_, exec_of_not_ready h⟩

end Sys2Proof.Machine
end

