-- ==== Sys2Proof/Laws/Float.lean ====
section
/-! SUPPORT. What the rounding of Sys2Proof/Machine/Float.lean does, in exact rationals (spec/00_scope.md R11,
spec/41_compute_ops.md R129): the nearest canonical value, exact where the operand is representable, and one form for each
finite value. -/

namespace Sys2Proof.Machine

/-- A power of two whose exponent's sign is split over a numerator and a denominator. -/
theorem two_zpow_split (z : Int) : (2 : ℚ) ^ z.toNat = 2 ^ z * 2 ^ (-z).toNat := by
  rcases le_total 0 z with h | h
  · have h1 : (-z).toNat = 0 := by omega
    rw [h1, pow_zero, mul_one, ← zpow_natCast, Int.toNat_of_nonneg h]
  · have h1 : z.toNat = 0 := by omega
    have h2 : (0 : Int) ≤ -z := by omega
    rw [h1, pow_zero, ← zpow_natCast (2 : ℚ) (-z).toNat, Int.toNat_of_nonneg h2, ← zpow_add₀ (by norm_num)]
    simp

theorem two_zpow_pos (z : Int) : (0 : ℚ) < 2 ^ z := by positivity

/-- Scaling a quotient by `2^-e`, as `roundRatio` does it in naturals. -/
theorem scaled_quotient (n d : Nat) (e : Int) :
    ((n * 2 ^ (-e).toNat : Nat) : ℚ) / ((d * 2 ^ e.toNat : Nat) : ℚ) = (n : ℚ) / d / 2 ^ e := by
  have h := two_zpow_split e
  have hp : (0 : ℚ) < 2 ^ (-e).toNat := by positivity
  have hz := two_zpow_pos e
  push_cast
  rw [h]
  rcases Nat.eq_zero_or_pos d with rfl | hd
  · simp
  · have hd' : (0 : ℚ) < d := by exact_mod_cast hd
    field_simp

/-- `floorLog2` brackets the quotient between two powers of two. -/
theorem floorLog2_bounds {n d : Nat} (hn : 0 < n) (hd : 0 < d) :
    (2 : ℚ) ^ floorLog2 n d ≤ (n : ℚ) / d ∧ (n : ℚ) / d < 2 ^ (floorLog2 n d + 1) := by
  have hd' : (0 : ℚ) < d := by exact_mod_cast hd
  have n1 : (2 : ℚ) ^ (Nat.log2 n : Int) ≤ n := by
    rw [zpow_natCast]; exact_mod_cast Nat.log2_self_le hn.ne'
  have n2 : (n : ℚ) < 2 ^ ((Nat.log2 n : Int) + 1) := by
    have := Nat.lt_log2_self (n := n)
    rw [show ((Nat.log2 n : Int) + 1) = ((Nat.log2 n + 1 : Nat) : Int) by push_cast; ring, zpow_natCast]
    exact_mod_cast this
  have d1 : (2 : ℚ) ^ (Nat.log2 d : Int) ≤ d := by
    rw [zpow_natCast]; exact_mod_cast Nat.log2_self_le hd.ne'
  have d2 : (d : ℚ) < 2 ^ ((Nat.log2 d : Int) + 1) := by
    have := Nat.lt_log2_self (n := d)
    rw [show ((Nat.log2 d : Int) + 1) = ((Nat.log2 d + 1 : Nat) : Int) by push_cast; ring, zpow_natCast]
    exact_mod_cast this
  unfold floorLog2
  generalize hk : (Nat.log2 n : Int) - (Nat.log2 d : Int) = k
  simp only
  have hp : (0 : ℚ) < 2 ^ (-k).toNat := by positivity
  have test : (d * 2 ^ k.toNat ≤ n * 2 ^ (-k).toNat) ↔ (2 : ℚ) ^ k ≤ (n : ℚ) / d := by
    rw [le_div_iff₀ hd', ← @Nat.cast_le ℚ]
    push_cast
    rw [two_zpow_split k, ← mul_assoc, mul_le_mul_iff_left₀ hp, mul_comm]
  split
  · next h =>
    refine ⟨test.mp h, ?_⟩
    rw [div_lt_iff₀ hd']
    calc (n : ℚ) < 2 ^ ((Nat.log2 n : Int) + 1) := n2
      _ = 2 ^ (k + 1) * 2 ^ (Nat.log2 d : Int) := by rw [← zpow_add₀ (by norm_num)]; congr 1; omega
      _ ≤ 2 ^ (k + 1) * d := by gcongr
  · next h =>
    rw [test, not_le] at h
    refine ⟨?_, by simpa using h⟩
    rw [le_div_iff₀ hd']
    calc (2 : ℚ) ^ (k - 1) * d ≤ 2 ^ (k - 1) * 2 ^ ((Nat.log2 d : Int) + 1) := by gcongr
      _ = 2 ^ (Nat.log2 n : Int) := by rw [← zpow_add₀ (by norm_num)]; congr 1; omega
      _ ≤ n := n1

/-- A multiple of the divisor is divided exactly. -/
theorem divNearestEven_mul (q : Nat) {d : Nat} (hd : 0 < d) : divNearestEven (q * d) d = q := by
  simp [divNearestEven, Nat.mul_div_cancel _ hd, hd]

/-- `divNearestEven` is at most half away from the quotient. -/
theorem divNearestEven_near (n : Nat) {d : Nat} (hd : 0 < d) :
    |(divNearestEven n d : ℚ) - (n : ℚ) / d| ≤ 1 / 2 := by
  have hd' : (0 : ℚ) < d := by exact_mod_cast hd
  have hq : (n : ℚ) = d * (n / d : Nat) + (n % d : Nat) := by exact_mod_cast (Nat.div_add_mod n d).symm
  have hr : ((n % d : Nat) : ℚ) < d := by exact_mod_cast Nat.mod_lt n hd
  have hr0 : (0 : ℚ) ≤ ((n % d : Nat) : ℚ) := by positivity
  have e : (n : ℚ) / d = (n / d : Nat) + ((n % d : Nat) : ℚ) / d := by rw [hq]; field_simp
  have low : 2 * (n % d) ≤ d → |((n / d : Nat) : ℚ) - (n : ℚ) / d| ≤ 1 / 2 := by
    intro h
    have h' : 2 * ((n % d : Nat) : ℚ) ≤ d := by exact_mod_cast h
    rw [e, abs_le]
    have : ((n % d : Nat) : ℚ) / d ≤ 1 / 2 := by rw [div_le_iff₀ hd']; linarith
    have : 0 ≤ ((n % d : Nat) : ℚ) / d := by positivity
    constructor <;> linarith
  have high : d ≤ 2 * (n % d) → |((n / d + 1 : Nat) : ℚ) - (n : ℚ) / d| ≤ 1 / 2 := by
    intro h
    have h' : (d : ℚ) ≤ 2 * ((n % d : Nat) : ℚ) := by exact_mod_cast h
    rw [e, abs_le]
    have : 1 / 2 ≤ ((n % d : Nat) : ℚ) / d := by rw [le_div_iff₀ hd']; linarith
    have : ((n % d : Nat) : ℚ) / d ≤ 1 := by rw [div_le_iff₀ hd']; linarith
    push_cast
    constructor <;> linarith
  unfold divNearestEven
  simp only
  split_ifs with h1 h2 h3
  · exact low h1.le
  · exact high h2.le
  · exact low (not_lt.mp h2)
  · exact high (not_lt.mp h1)

/-- The exponent `roundRatio` rounds to. -/
def lastPlace (n d : Nat) : Int :=
  max (floorLog2 n d - 52) (-1074)

/-- Measured in its last place, a quotient is below 2^53, and at least 2^52 unless the last place is the least one. -/
theorem lastPlace_bounds {n d : Nat} (hn : 0 < n) (hd : 0 < d) :
    (n : ℚ) / d / 2 ^ lastPlace n d < 2 ^ 53 ∧
      ((2 : ℚ) ^ 52 ≤ (n : ℚ) / d / 2 ^ lastPlace n d ∨ lastPlace n d = -1074) := by
  obtain ⟨k1, k2⟩ := floorLog2_bounds hn hd
  unfold lastPlace
  generalize floorLog2 n d = k at k1 k2
  generalize he : max (k - 52) (-1074) = e
  have hz := two_zpow_pos e
  refine ⟨?_, ?_⟩
  · rw [div_lt_iff₀ hz]
    calc (n : ℚ) / d < 2 ^ (k + 1) := k2
      _ ≤ 2 ^ (53 + e) := zpow_le_zpow_right₀ (by norm_num) (by omega)
      _ = 2 ^ 53 * 2 ^ e := by rw [zpow_add₀ (by norm_num)]; norm_num
  · rcases le_total (k - 52) (-1074) with h | h
    · right; omega
    · left
      rw [le_div_iff₀ hz]
      calc (2 : ℚ) ^ 52 * 2 ^ e = 2 ^ (52 + e) := by rw [zpow_add₀ (by norm_num)]; norm_num
        _ = 2 ^ k := by congr 1; omega
        _ ≤ _ := k1

/-- A quotient below `2^a` has its last place at `a - 53` or less, or at the least one. -/
theorem lastPlace_le {n d : Nat} (hn : 0 < n) (hd : 0 < d) {a : Int} (hb : (n : ℚ) / d < 2 ^ a) :
    lastPlace n d ≤ max (a - 53) (-1074) := by
  obtain ⟨k1, -⟩ := floorLog2_bounds hn hd
  have : floorLog2 n d < a := by
    by_contra hc
    have : (2 : ℚ) ^ a ≤ 2 ^ floorLog2 n d := zpow_le_zpow_right₀ (by norm_num) (by omega)
    exact absurd (lt_of_le_of_lt (le_trans this k1) hb) (lt_irrefl _)
  unfold lastPlace
  omega

/-- A rounded quotient of positive naturals below 2^1023 is a canonical finite value, at most half a unit in its last
place away (R11). -/
theorem roundRatio_near (neg : Bool) {n d : Nat} (hn : 0 < n) (hd : 0 < d) (hb : (n : ℚ) / d < 2 ^ (1023 : Int)) :
    ∃ m e, roundRatio neg n d = .fin neg m e ∧ (F64.fin neg m e).canonical = true ∧
      |(m : ℚ) * 2 ^ e - (n : ℚ) / d| ≤ 2 ^ e / 2 := by
  have hle := lastPlace_le hn hd hb
  obtain ⟨hx, h52⟩ := lastPlace_bounds hn hd
  have hmin : -1074 ≤ lastPlace n d := le_max_right _ _
  unfold roundRatio
  rw [if_neg hn.ne']
  simp only [show max (floorLog2 n d - 52) (-1074) = lastPlace n d from rfl]
  generalize lastPlace n d = e at *
  have hz := two_zpow_pos e
  have hD : 0 < d * 2 ^ e.toNat := by positivity
  have near := divNearestEven_near (n * 2 ^ (-e).toNat) hD
  rw [scaled_quotient] at near
  generalize divNearestEven (n * 2 ^ (-e).toNat) (d * 2 ^ e.toNat) = m at near
  have hm53 : m ≤ 2 ^ 53 := by
    have h1 := (abs_le.mp near).2
    have h2 : (m : ℚ) < ((2 ^ 53 + 1 : Nat) : ℚ) := by push_cast; linarith
    have h3 : m < 2 ^ 53 + 1 := by exact_mod_cast h2
    omega
  have hm52 : 2 ^ 52 ≤ m ∨ e = -1074 := by
    rcases h52 with h0 | h
    · left
      have h1 := (abs_le.mp near).1
      have h2 : ((2 ^ 52 : Nat) : ℚ) < ((m + 1 : Nat) : ℚ) := by push_cast; linarith
      have h3 : 2 ^ 52 < m + 1 := by exact_mod_cast h2
      omega
    · exact .inr h
  have nearE : |(m : ℚ) * 2 ^ e - (n : ℚ) / d| ≤ 2 ^ e / 2 := by
    have : (m : ℚ) * 2 ^ e - (n : ℚ) / d = ((m : ℚ) - (n : ℚ) / d / 2 ^ e) * 2 ^ e := by field_simp
    rw [this, abs_mul, abs_of_pos hz]
    have h := mul_le_mul_of_nonneg_right near hz.le
    linarith
  simp only [packF64]
  by_cases h53 : m = 2 ^ 53
  · rw [if_pos h53, if_pos h53, if_pos (by omega)]
    refine ⟨_, _, rfl, ?_, ?_⟩
    · simp [F64.canonical]; omega
    · have : (((2 ^ 52 : Nat) : ℚ) * 2 ^ (e + 1)) = (m : ℚ) * 2 ^ e := by
        rw [h53, zpow_add₀ (by norm_num)]; push_cast; ring
      rw [this, zpow_add₀ (by norm_num)]
      refine le_trans nearE ?_
      rw [zpow_one]; linarith
  · rw [if_neg h53, if_neg h53, if_pos (by omega)]
    refine ⟨m, e, rfl, ?_, nearE⟩
    simp [F64.canonical]; omega

/-- A quotient that is representable is rounded to itself (R11: a conversion of a representable value never rounds). -/
theorem roundRatio_exact (neg : Bool) {n d M : Nat} {E : Int} (hn : 0 < n) (hd : 0 < d) (hM : M < 2 ^ 53)
    (hE : -1074 ≤ E) (hE' : E ≤ 969) (h : (n : ℚ) / d = M * 2 ^ E) :
    ∃ m e, roundRatio neg n d = .fin neg m e ∧ (F64.fin neg m e).canonical = true ∧
      (m : ℚ) * 2 ^ e = (n : ℚ) / d := by
  have hM' : (M : ℚ) < 2 ^ (53 : Int) := by
    have : (M : ℚ) < ((2 ^ 53 : Nat) : ℚ) := by exact_mod_cast hM
    norm_num at this ⊢; exact this
  have hb : (n : ℚ) / d < 2 ^ (53 + E) := by
    rw [h, zpow_add₀ (by norm_num)]
    have := two_zpow_pos E
    gcongr
  have hle := lastPlace_le hn hd hb
  obtain ⟨hx, h52⟩ := lastPlace_bounds hn hd
  have hmin : -1074 ≤ lastPlace n d := le_max_right _ _
  unfold roundRatio
  rw [if_neg hn.ne']
  simp only [show max (floorLog2 n d - 52) (-1074) = lastPlace n d from rfl]
  generalize lastPlace n d = e at *
  have hz := two_zpow_pos e
  have hD : 0 < d * 2 ^ e.toNat := by positivity
  have hEe : 0 ≤ E - e := by omega
  -- in its last place the quotient is the integer `m`
  obtain ⟨m, hm⟩ : ∃ m : Nat, (n : ℚ) / d / 2 ^ e = m := by
    refine ⟨M * 2 ^ (E - e).toNat, ?_⟩
    push_cast
    rw [h, ← zpow_natCast (2 : ℚ) (E - e).toNat, Int.toNat_of_nonneg hEe, zpow_sub₀ (by norm_num)]
    ring
  have hN : n * 2 ^ (-e).toNat = m * (d * 2 ^ e.toNat) := by
    have h1 := scaled_quotient n d e
    rw [hm, div_eq_iff (by positivity)] at h1
    exact_mod_cast h1
  rw [hN, divNearestEven_mul m hD]
  rw [hm] at hx h52
  have hm53 : m < 2 ^ 53 := by exact_mod_cast hx
  have hm52 : 2 ^ 52 ≤ m ∨ e = -1074 := h52.imp_left fun h0 => by exact_mod_cast h0
  simp only [packF64]
  rw [if_neg hm53.ne, if_neg hm53.ne, if_pos (by omega)]
  refine ⟨m, e, rfl, ?_, ?_⟩
  · simp [F64.canonical]; omega
  · rw [← hm]; field_simp

/-- A finite value is written in canonical form in one way only. -/
theorem canonical_unique {m₁ m₂ : Nat} {e₁ e₂ : Int} {neg : Bool} (h₁ : (F64.fin neg m₁ e₁).canonical = true)
    (h₂ : (F64.fin neg m₂ e₂).canonical = true) (h : (m₁ : ℚ) * 2 ^ e₁ = m₂ * 2 ^ e₂) : m₁ = m₂ ∧ e₁ = e₂ := by
  -- with the smaller exponent above the least one, the other mantissa would be too large
  have key : ∀ {a b : Nat} {x y : Int}, (F64.fin neg a x).canonical = true → (F64.fin neg b y).canonical = true →
      (a : ℚ) * 2 ^ x = b * 2 ^ y → ¬ x < y := by
    intro a b x y ha hb hab hxy
    have ha' : a < 2 ^ 53 ∧ -1074 ≤ x ∧ x ≤ 971 ∧ (2 ^ 52 ≤ a ∨ x = -1074) := by simpa [F64.canonical] using ha
    have hb' : b < 2 ^ 53 ∧ -1074 ≤ y ∧ y ≤ 971 ∧ (2 ^ 52 ≤ b ∨ y = -1074) := by simpa [F64.canonical] using hb
    have hb52 : 2 ^ 52 ≤ b := by omega
    have hx := two_zpow_pos x
    have e1 : (a : ℚ) = b * 2 ^ (y - x) := by
      rw [zpow_sub₀ (by norm_num), ← mul_div_assoc, ← hab]
      field_simp
    have two : (2 : ℚ) ≤ 2 ^ (y - x) := by
      calc (2 : ℚ) = 2 ^ (1 : Int) := by norm_num
        _ ≤ _ := zpow_le_zpow_right₀ (by norm_num) (by omega)
    have hbq : ((2 ^ 52 : Nat) : ℚ) ≤ b := by exact_mod_cast hb52
    have haq : (a : ℚ) < ((2 ^ 53 : Nat) : ℚ) := by exact_mod_cast ha'.1
    push_cast at hbq haq
    nlinarith
  have he : e₁ = e₂ := le_antisymm (not_lt.mp (key h₂ h₁ h.symm)) (not_lt.mp (key h₁ h₂ h))
  subst he
  have := two_zpow_pos e₁
  refine ⟨?_, rfl⟩
  have : (m₁ : ℚ) = m₂ := mul_right_cancel₀ this.ne' h
  exact_mod_cast this

/-- `units` is the exact value measured in 2^-1074. -/
theorem units_eq {neg : Bool} {m : Nat} {e : Int} (he : -1074 ≤ e) :
    ((F64.fin neg m e).units : ℚ) = (if neg then -1 else 1) * ((m : ℚ) * 2 ^ e) * 2 ^ (1074 : Int) := by
  have h : (2 : ℚ) ^ (e + 1074).toNat = 2 ^ e * 2 ^ (1074 : Int) := by
    rw [← zpow_add₀ (by norm_num), ← zpow_natCast, Int.toNat_of_nonneg (by omega)]
  simp only [F64.units]
  push_cast
  rw [h]
  split <;> ring

end Sys2Proof.Machine
end

