-- ==== Sys2Proof/Laws/Operands.lean ====
section
/-! SUPPORT. The payload decoders and the multiply-accumulator as plain arithmetic (Sys2Proof/Machine/Operands.lean,
Compute.lean). -/

namespace Sys2Proof.Machine

/-- The word of a byte pair as a number (R52). -/
theorem wordOf_toNat (m l : Byte) : (wordOf m l).toNat = m.toNat * 256 + l.toNat := by
  unfold wordOf
  rw [BitVec.toNat_append, ← Nat.shiftLeft_add_eq_or_of_lt l.isLt, Nat.shiftLeft_eq]

/-- The high bit of a word says whether it is 32768 or more. -/
theorem wordOf_bit15 (m l : Byte) :
    (wordOf m l).getLsbD 15 = decide (32768 ≤ m.toNat * 256 + l.toNat) := by
  rw [← wordOf_toNat, ← BitVec.msb_eq_getLsbD_last, BitVec.msb_eq_decide]

/-- The Signed Register Decoder without bit operations (R101). -/
theorem dec_eq (k : NegOffset) (m l : Byte) :
    dec k m l =
      ((m.toNat * 256 + l.toNat : Nat) : Int) - if 32768 ≤ m.toNat * 256 + l.toNat then k.value else 0 := by
  simp only [dec, wordOf_bit15, wordOf_toNat, decide_eq_true_eq]
  split <;> simp

/-- Every decoded value is a 16-bit two's complement number, for either `NEG_OFFSET` (R101). -/
theorem dec_mem_int16 (k : NegOffset) (m l : Byte) : -32768 ≤ dec k m l ∧ dec k m l ≤ 32767 := by
  have hm := m.isLt
  have hl := l.isLt
  rw [dec_eq]
  cases k <;> simp only [NegOffset.value] <;> split <;> omega

/-- A 16-bit register holds a code of its range exactly. -/
theorem toInt_ofInt_16 {v : Int} (h : -32768 ≤ v ∧ v ≤ 32767) : (BitVec.ofInt 16 v).toInt = v := by
  rw [BitVec.toInt_ofInt, Int.bmod_eq_of_le] <;> omega

/-- A 14-bit register holds a code of its range exactly. -/
theorem toInt_ofInt_14 {v : Int} (h : -8192 ≤ v ∧ v ≤ 8191) : (BitVec.ofInt 14 v).toInt = v := by
  rw [BitVec.toInt_ofInt, Int.bmod_eq_of_le] <;> omega

end Sys2Proof.Machine
end

