-- ==== Sys2Proof/Laws/PerInstr.lean ====
section
/-! SUPPORT. The family EncodesWell: the frame of every operation is well formed (spec/30_encoding.md R70 to R72), one lemma
per constructor. -/

namespace Sys2Proof.Laws.EncodesWell

/-- The encoding has a legal opcode, that opcode's payload length, and the length the decoder learns from the opcode. -/
def Statement (i : Instr) : Prop :=
  (encode i).wellFormed = true ∧ payloadNeed (encode i).op = (encode i).payload.length

theorem ldrawp (msb lsb : Byte) : Statement (.ldrawp msb lsb) := ⟨rfl, rfl⟩
theorem ldrawt (msb lsb : Byte) : Statement (.ldrawt msb lsb) := ⟨rfl, rfl⟩
theorem ldcoef (p0 p1 p2 p3 p4 p5 p6 p7 : Byte) : Statement (.ldcoef p0 p1 p2 p3 p4 p5 p6 p7) := ⟨rfl, rfl⟩
theorem compp : Statement .compp := ⟨rfl, rfl⟩
theorem compt : Statement .compt := ⟨rfl, rfl⟩
theorem invcoef : Statement .invcoef := ⟨rfl, rfl⟩
theorem rdStatus : Statement .rdStatus := ⟨rfl, rfl⟩
theorem rdA0 : Statement .rdA0 := ⟨rfl, rfl⟩
theorem rdB1 : Statement .rdB1 := ⟨rfl, rfl⟩
theorem rdB2 : Statement .rdB2 := ⟨rfl, rfl⟩
theorem rdC12 : Statement .rdC12 := ⟨rfl, rfl⟩
theorem rdRawP : Statement .rdRawP := ⟨rfl, rfl⟩
theorem rdRawT : Statement .rdRawT := ⟨rfl, rfl⟩
theorem rdPcomp : Statement .rdPcomp := ⟨rfl, rfl⟩
theorem rdPresOut : Statement .rdPresOut := ⟨rfl, rfl⟩
theorem rdTempOut : Statement .rdTempOut := ⟨rfl, rfl⟩

end Sys2Proof.Laws.EncodesWell
end

