-- ==== Sys2Proof/Laws/Step.lean ====
section
/-! SUPPORT. What one step can do, by the move at the head of the port (Sys2Proof/Machine/Step.lean). -/

namespace Sys2Proof.Machine

theorem step_idle {s : State} (h : s.port = []) : step s = .next s := by
  simp [step, h]

theorem step_reset {s : State} {ms : List HostMove} (h : s.port = .reset :: ms) :
    step s = .next (s.setPort ms).engineReset := by
  simp [step, h]

theorem step_sensor {s : State} {a : SensorAction} {ms : List HostMove} (h : s.port = .sensor a :: ms) :
    step s = .next (s.setPort ms) := by
  simp [step, h]

theorem step_deliver {s : State} {f : Frame} {ms : List HostMove} (h : s.port = .deliver f :: ms) :
    step s = perform f (s.setPort ms) := by
  simp [step, h]

theorem perform_ok {f : Frame} {i : Instr} (h : decode f = .ok i) (s : State) : perform f s = exec i s := by
  simp [perform, h]

theorem perform_error {f : Frame} {r : Reject} (h : decode f = .error r) (s : State) :
    perform f s = .next (faulted (rejectCode r) s) := by
  simp [perform, h, raise_eq]

/-- A frame is either the operation it decodes to or a fault with the code of its rejection. -/
theorem perform_cases (f : Frame) (s : State) :
    (∃ i, decode f = .ok i ∧ perform f s = exec i s) ∨
      ∃ r, decode f = .error r ∧ perform f s = .next (faulted (rejectCode r) s) := by
  cases h : decode f with
  | ok i => exact .inl ⟨i, rfl, perform_ok h s⟩
  | error r => exact .inr ⟨r, rfl, perform_error h s⟩

/-- A performed frame always answers a next state. -/
theorem perform_answers (f : Frame) (s : State) : ∃ t, perform f s = .next t := by
  rcases perform_cases f s with ⟨i, -, h⟩ | ⟨r, -, h⟩
  · rw [h]; exact exec_answers i s
  · exact ⟨_, h⟩

/-! A move without the moves after it (Sys2Proof/Safety.lean `afterMove`). -/

/-- What an operation does, it does whatever moves are to come. -/
theorem exec_setPort {i : Instr} {s t : State} (h : exec i s = .next t) (ms : List HostMove) :
    exec i (s.setPort ms) = .next (t.setPort ms) := by
  have reads : ∀ v, answer v s = .next t → answer v (s.setPort ms) = .next (t.setPort ms) := by
    rintro (_ | v) ⟨⟩ <;> rfl
  cases i
  case ldrawp => cases h; rfl
  case ldrawt => cases h; rfl
  case ldcoef => cases h; rfl
  case invcoef => cases h; rfl
  case compp =>
    simp only [exec, execCompp, State.setPort_coef, State.setPort_rawT, State.setPort_rawP] at h ⊢
    revert h
    rcases s.coef with _ | c <;> rcases s.rawT with _ | tr <;> rcases s.rawP with _ | pr <;> rintro ⟨⟩ <;> rfl
  case compt =>
    simp only [exec, execCompt, State.setPort_coef, State.setPort_rawT] at h ⊢
    revert h
    rcases s.coef with _ | c <;> rcases s.rawT with _ | tr <;> rintro ⟨⟩ <;> rfl
  case rdStatus => exact reads (register 0 s) h
  case rdA0 => exact reads (register 1 s) h
  case rdB1 => exact reads (register 2 s) h
  case rdB2 => exact reads (register 3 s) h
  case rdC12 => exact reads (register 4 s) h
  case rdRawP => exact reads (register 5 s) h
  case rdRawT => exact reads (register 6 s) h
  case rdPcomp => exact reads (register 7 s) h
  case rdPresOut => exact reads (register 8 s) h
  case rdTempOut => exact reads (register 9 s) h

theorem perform_setPort {f : Frame} {s t : State} (h : perform f s = .next t) (ms : List HostMove) :
    perform f (s.setPort ms) = .next (t.setPort ms) := by
  rcases perform_cases f s with ⟨i, hd, hp⟩ | ⟨r, hd, hp⟩
  · rw [perform_ok hd]; exact exec_setPort (hp ▸ h) ms
  · rw [hp] at h; cases h; rw [perform_error hd]; rfl

/-- A step is `afterMove` of the move it takes, with the other moves still to come. -/
theorem step_eq_afterMove {s : State} {m : HostMove} {ms : List HostMove} (h : s.port = m :: ms) :
    step s = .next ((afterMove m s).setPort ms) := by
  cases m with
  | deliver f =>
    obtain ⟨t, ht⟩ := perform_answers f (s.setPort [])
    have hm : afterMove (.deliver f) s = t := by
      simp only [afterMove]
      rw [step_deliver (ms := []) rfl]
      exact congrArg (fun o : Result => match o with | .next t => t | _ => s) ht
    rw [step_deliver h, hm]
    exact perform_setPort ht ms
  | reset => rw [step_reset h]; rfl
  | sensor a => rw [step_sensor h]; rfl

/-! None of these reads the moves still to come. -/

@[simp] theorem frameCode_setPort (f : Frame) (s : State) (ms : List HostMove) :
    frameCode f (s.setPort ms) = frameCode f s := by
  unfold frameCode
  split_ifs
  · rfl
  · rfl
  · cases decode f with
    | ok i => cases i <;> rfl
    | error => rfl

@[simp] theorem afterMove_setPort (m : HostMove) (s : State) (ms : List HostMove) :
    afterMove m (s.setPort ms) = afterMove m s := by
  cases m
  case deliver f =>
    obtain ⟨t, ht⟩ := perform_answers f (s.setPort [])
    simp only [State.setPort] at ht
    simp [afterMove, step, State.setPort, ht]
  all_goals rfl

@[simp] theorem inputsLoaded_setPort (s : State) (q ms : List HostMove) :
    inputsLoaded (s.setPort q) ms = inputsLoaded s ms := by
  rcases ms with _ | ⟨m, ms⟩
  · rfl
  · cases m <;> simp [inputsLoaded]

/-! Runs (Host/Core.lean), one step at a time. -/

theorem run_zero (s : State) : Host.Core.run core 0 s = .next s := rfl

/-- A run's first step, of any machine, where it answers a next state. -/
theorem coreRun_succ {M : Host.Core} {s t : M.State} (h : M.step s = .next t) (k : Nat) :
    M.run (k + 1) s = M.run k t := by
  rw [Host.Core.run, h]

/-- A run's first step, where it answers a next state. -/
theorem run_succ {s t : State} (h : step s = .next t) (k : Nat) :
    Host.Core.run core (k + 1) s = Host.Core.run core k t :=
  coreRun_succ (M := core) h k

end Sys2Proof.Machine
end

