-- ==== Sys2Proof/Tests/Slice0.lean ====
section
/-! SUPPORT. The model's own tests. Expected values are the spec's: the opcode map and formats of spec/30_encoding.md, the
examples of the operation rules, and the vectors of spec/95_test_vectors.md, named in each comment. The `witness_`
theorems show states and operands that meet the hypotheses of the obligations. -/

namespace Sys2Proof.Tests

open Sys2Proof.Machine

/-! ## Well-formedness of frames: one ill-formed frame per check -/

/-- R75: a reserved opcode (the sensor's initiateConversion) is refused. -/
theorem test_wellFormed_refuses_reserved : Frame.wellFormed ⟨0x12#8, []⟩ = false := by decide
/-- R75: the reserved RD index 10 is refused. -/
theorem test_wellFormed_refuses_rd10 : Frame.wellFormed ⟨0x3A#8, []⟩ = false := by decide
/-- R72: LDCOEF with two payload bytes is refused. -/
theorem test_wellFormed_refuses_short : Frame.wellFormed ⟨0x04#8, [0x3E#8, 0xCE#8]⟩ = false := by decide
/-- R72: COMPP with one payload byte is refused. -/
theorem test_wellFormed_refuses_long : Frame.wellFormed ⟨0x10#8, [0x00#8]⟩ = false := by decide
theorem test_wellFormed_accepts : Frame.wellFormed ⟨0x00#8, [0x66#8, 0x80#8]⟩ = true := by decide

/-! ## Decoding: one frame per constructor, its opcode in binary as R70 writes it -/

theorem test_decode_ldrawp : decode ⟨0b00000000#8, [0x66#8, 0x80#8]⟩ = .ok (.ldrawp 0x66#8 0x80#8) := rfl
theorem test_decode_ldrawt : decode ⟨0b00000010#8, [0x7E#8, 0xC0#8]⟩ = .ok (.ldrawt 0x7E#8 0xC0#8) := rfl
theorem test_decode_ldcoef :
    decode ⟨0b00000100#8, [0x3E#8, 0xCE#8, 0xB3#8, 0xF9#8, 0xC5#8, 0x17#8, 0x33#8, 0xC8#8]⟩ =
      .ok (.ldcoef 0x3E#8 0xCE#8 0xB3#8 0xF9#8 0xC5#8 0x17#8 0x33#8 0xC8#8) := rfl
theorem test_decode_compp : decode ⟨0b00010000#8, []⟩ = .ok .compp := rfl
theorem test_decode_compt : decode ⟨0b00010001#8, []⟩ = .ok .compt := rfl
theorem test_decode_invcoef : decode ⟨0b00100000#8, []⟩ = .ok .invcoef := rfl
theorem test_decode_rdStatus : decode ⟨0b00110000#8, []⟩ = .ok .rdStatus := rfl
theorem test_decode_rdA0 : decode ⟨0b00110001#8, []⟩ = .ok .rdA0 := rfl
theorem test_decode_rdB1 : decode ⟨0b00110010#8, []⟩ = .ok .rdB1 := rfl
theorem test_decode_rdB2 : decode ⟨0b00110011#8, []⟩ = .ok .rdB2 := rfl
theorem test_decode_rdC12 : decode ⟨0b00110100#8, []⟩ = .ok .rdC12 := rfl
theorem test_decode_rdRawP : decode ⟨0b00110101#8, []⟩ = .ok .rdRawP := rfl
theorem test_decode_rdRawT : decode ⟨0b00110110#8, []⟩ = .ok .rdRawT := rfl
theorem test_decode_rdPcomp : decode ⟨0b00110111#8, []⟩ = .ok .rdPcomp := rfl
theorem test_decode_rdPresOut : decode ⟨0b00111000#8, []⟩ = .ok .rdPresOut := rfl
theorem test_decode_rdTempOut : decode ⟨0b00111001#8, []⟩ = .ok .rdTempOut := rfl
/-- L2-9: reserved and of a wrong length is ILLEGAL_OP. -/
theorem test_decode_reserved_first : decode ⟨0x3F#8, [0x00#8]⟩ = .error (.illegalOp 0x3F#8) := rfl
/-- L2-8: COMPT with a payload byte is FRAME. -/
theorem test_decode_length_second : decode ⟨0x11#8, [0x00#8]⟩ = .error (.frame 0x11#8 1) := rfl
theorem test_decodeTableWord_ldcoef : decodeTableWord 8 0x04 = some (.ldcoef 0 0 0 0 0 0 0 0) := by decide
theorem test_decodeTableWord_operand_bytes : decodeTableWord 24 0x806600 = some (.ldrawp 0x66#8 0x80#8) := by decide
theorem test_decodeTableWord_reserved : decodeTableWord 8 0x3A = none := by decide

/-! ## A small state: reset, with some registers holding a value -/

/-- The coefficient set of the LDCOEF example of R104. -/
def exampleCoefs : Coefs :=
  ⟨0x3ECE#16, 0xB3FA#16, 0xC518#16, 0x0CF2#14⟩

/-- Reset with a coefficient set and raw counts. -/
def loaded (c : Option Coefs) (p t : Option (BitVec 10)) : State :=
  { State.reset with coef := c, rawP := p, rawT := t }

/-- Reset with moves of the host to take. -/
def withPort (ms : List HostMove) : State :=
  { State.reset with port := ms }

/-- The state an operation leaves, where it answers one. -/
def after (i : Instr) (s : State) : State :=
  match exec i s with
  | .next t => t
  | _ => s

/-! ## One step of each operation -/

/-- L2-1, R101: word 0x8000 decodes to -32767 at 65535 and to -32768 at 65536. -/
theorem test_dec_8000 :
    dec .off65535 0x80#8 0x00#8 = -32767 ∧ dec .off65536 0x80#8 0x00#8 = -32768 := by decide
/-- L2-2: word 0xFFFB gives c12i = -1 at 65535 and -2 at 65536. -/
theorem test_c12_FFFB : decC12 .off65535 0xFF#8 0xFB#8 = -1 ∧ decC12 .off65536 0xFF#8 0xFB#8 = -2 := by decide
/-- L2-4: the payload of all 0x8000 words. -/
theorem test_ldcoef_8000 :
    (after (.ldcoef 0x80#8 0 0x80#8 0 0x80#8 0 0x80#8 0) State.reset).coef =
      some ⟨0x8001#16, 0x8001#16, 0x8001#16, 0x2000#14⟩ := by decide
/-- R104 example, over a set that was there. -/
theorem test_ldcoef_overwrites :
    (after (.ldcoef 0x3E#8 0xCE#8 0xB3#8 0xF9#8 0xC5#8 0x17#8 0x33#8 0xC8#8)
      (loaded (some ⟨1, 2, 3, 4⟩) none none)).coef = some exampleCoefs := by decide
/-- L2-3: bytes 66 80 give 410. -/
theorem test_ldrawp : (after (.ldrawp 0x66#8 0x80#8) State.reset).rawP = some 410#10 := by decide
/-- L2-3: bytes FF FF give 1023, and the pressure latch is left alone. -/
theorem test_ldrawt :
    (after (.ldrawt 0xFF#8 0xFF#8) (loaded none (some 7#10) none)).rawT = some 1023#10 ∧
      (after (.ldrawt 0xFF#8 0xFF#8) (loaded none (some 7#10) none)).rawP = some 7#10 := by decide
/-- L2-5 "L1-4 nearest". -/
theorem test_compp_nearest :
    (after .compp (loaded (some ⟨16000#16, 0xB000#16, 0xFFDF#16, 0x3FFE#14⟩) (some 400#10) (some 500#10))).presOut =
      some 0x405C5DFCF39CE73A#64 := by decide
/-- L2-5 "minimum (65535)": the accumulator, and both samples consumed. -/
theorem test_compp_minimum :
    let t := after .compp
      (loaded (some ⟨0x8001#16, 0x8001#16, 0x8001#16, 0x2000#14⟩) (some 1023#10) (some 1023#10))
    t.pcomp = some 0xF40293DD00#40 ∧ t.presOut = some 0xC086D0DBDE0F83E1#64 ∧ t.rawP = none ∧ t.rawT = none := by
  decide
/-- L2-6: Tr = 512. -/
theorem test_compt_512 :
    (after .compt (loaded (some exampleCoefs) none (some 512#10))).tempOut = some 0x40366217ECDC1CB6#64 := by decide
/-- L2-6: Tr = 497, the pressure latch left alone (R130). -/
theorem test_compt_497 :
    let t := after .compt (loaded (some exampleCoefs) (some 3#10) (some 497#10))
    t.tempOut = some 0x40392FD9B8396BAA#64 ∧ t.rawP = some 3#10 ∧ t.rawT = none := by decide
/-- L2-7: after INVCOEF the set is gone and the raw latches stay (R150). -/
theorem test_invcoef :
    let t := after .invcoef (loaded (some exampleCoefs) (some 1#10) (some 2#10))
    t.coef = none ∧ t.rawP = some 1#10 ∧ t.rawT = some 2#10 ∧ status t = 0x0006#16 := by decide
/-- L2-8: NO_RAW_P leaves STATUS 0x0505. -/
theorem test_status_no_raw_p : status (after .compp (loaded (some exampleCoefs) none (some 507#10))) = 0x0505#16 := by
  decide
/-- R152: RD C12 after word 0x8000 is 0xE000. -/
theorem test_rdC12_sign_extends :
    (after .rdC12 (loaded (some ⟨0, 0, 0, 0x2000#14⟩) none none)).responses = [⟨.ok, some (.w16 0xE000#16)⟩] := by
  decide
/-- L2-4: RD A0, B1 and B2 of the example. -/
theorem test_rdA0 : (after .rdA0 (loaded (some exampleCoefs) none none)).responses = [⟨.ok, some (.w16 0x3ECE#16)⟩] := by
  decide
theorem test_rdB1 : (after .rdB1 (loaded (some exampleCoefs) none none)).responses = [⟨.ok, some (.w16 0xB3FA#16)⟩] := by
  decide
theorem test_rdB2 : (after .rdB2 (loaded (some exampleCoefs) none none)).responses = [⟨.ok, some (.w16 0xC518#16)⟩] := by
  decide
/-- L2-7: RD RAW_P of 410 is 0x019A and does not consume. -/
theorem test_rdRawP :
    after .rdRawP (loaded none (some 410#10) none) =
      { loaded none (some 410#10) none with responses := [⟨.ok, some (.w16 0x019A#16)⟩] } := by decide
/-- L2-7: RD RAW_T without a count faults NO_DATA. -/
theorem test_rdRawT_no_data :
    after .rdRawT (loaded none (some 410#10) none) =
      { loaded none (some 410#10) none with err := .noData, responses := [⟨.noData, none⟩] } := by decide
/-- R152: RD PCOMP returns the code modulo 2^40; RD PRES_OUT and RD TEMP_OUT return the pattern. -/
theorem test_rdPcomp :
    (after .rdPcomp { State.reset with pcomp := some 0xF40293DD00#40 }).responses =
      [⟨.ok, some (.w40 0xF40293DD00#40)⟩] := by decide
theorem test_rdPresOut :
    (after .rdPresOut { State.reset with presOut := some 0x405825EB100B02C0#64 }).responses =
      [⟨.ok, some (.w64 0x405825EB100B02C0#64)⟩] := by decide
theorem test_rdTempOut :
    (after .rdTempOut { State.reset with tempOut := some 0x4037515885FB3707#64 }).responses =
      [⟨.ok, some (.w64 0x4037515885FB3707#64)⟩] := by decide
/-- L2-7: RD STATUS with the sticky code 6 and no valid bit. -/
theorem test_rdStatus :
    (after .rdStatus { State.reset with err := .noData }).responses = [⟨.ok, some (.w16 0x0600#16)⟩] := by decide

/-! ## Steps of the machine -/

/-- L2-8: the raw frame 12 00 answers ILLEGAL_OP and sets ERR. -/
theorem test_step_illegal :
    step (withPort [.deliver ⟨0x12#8, [0x00#8]⟩]) =
      .next { State.reset with err := .illegalOp, responses := [⟨.illegalOp, none⟩] } := rfl
/-- L2-9: a later fault keeps the first code. -/
theorem test_step_sticky :
    step { withPort [.deliver ⟨0x10#8, []⟩] with err := .noData } =
      .next { State.reset with err := .noData, responses := [⟨.noCoef, none⟩] } := rfl
theorem test_step_reset :
    step { loaded (some exampleCoefs) (some 1#10) none with err := .frame, port := [.reset] } = .next State.reset := rfl
/-- The frame of an opcode-table word is what the next step performs. -/
theorem test_withFetchWord :
    step (State.reset.withFetchWord 8 0x02) =
      .next { State.reset with rawT := some 0#10, responses := [⟨.ok, none⟩] } := rfl

/-! ## The binary64 operations -/

/-- R123, R125: the two constants. -/
theorem test_kP : kP.bits = 0x3FB0441104411044#64 := by decide
theorem test_kT : kT.bits = 0xC015666666666666#64 := by decide
/-- A tie goes to the even neighbour: 2^53 + 1 rounds down, 2^53 + 3 rounds up (R11). -/
theorem test_ties_to_even :
    fadd64 (f64 (2 ^ 53) 0) (f64 1 0) = f64 (2 ^ 53) 0 ∧
      fadd64 (f64 (2 ^ 53 + 2) 0) (f64 1 0) = f64 (2 ^ 53 + 4) 0 := by decide
/-- An exact zero sum of opposite addends is +0.0 (R123). -/
theorem test_zero_sum : (fadd64 (f64 50 0) (f64 (-50) 0)).bits = 0#64 := by decide
/-- A pattern read back as a value. -/
theorem test_ofBits : F64.ofBits 0x4039000000000000#64 = f64 25 0 := by decide

/-! ## The assembler -/

/-- R78: `LDRAWP 0x66, 0x80` is `00 66 80`. -/
theorem test_listing : listing (encode (.ldrawp 0x66#8 0x80#8)) = ['0', '0', ' ', '6', '6', ' ', '8', '0'] := by decide
/-- R78: case, a decimal byte, and a comment. -/
theorem test_assembleLine :
    assembleLine ['l', 'd', 'R', 'A', 'W', 'p', ' ', '0', 'x', '6', '6', ',', '1', '2', '8', ' ', ';', 'x'] =
      .ok [.ldrawp 0x66#8 0x80#8] := by decide
/-- R79: `RD 10` on the second line. -/
theorem test_assemble_refuses :
    assemble ['C', 'O', 'M', 'P', 'P', '\n', 'R', 'D', ' ', '1', '0'] = .error ⟨2, .rdIndex⟩ := by decide
/-- R80: TEMPERATURE as a line. -/
theorem test_assemble_pseudo :
    assembleLine ['T', 'E', 'M', 'P', 'E', 'R', 'A', 'T', 'U', 'R', 'E', ' ', '1', ',', '2'] =
      .ok [.ldrawt 1 2, .compt, .rdTempOut] := by decide

/-! ## Witnesses: the hypotheses of the obligations can be met -/

theorem witness_ReservedOpcodesFault :
    (withPort [.deliver ⟨0x12#8, [0x00#8]⟩]).port = .deliver ⟨0x12#8, [0x00#8]⟩ :: [] ∧
      ∀ op ∈ [0x01#8, 0x03#8, 0x05#8, 0x12#8, 0x2F#8, 0x3A#8, 0x3F#8, 0xFF#8],
        op ∉ [0x00#8, 0x02#8, 0x04#8, 0x10#8, 0x11#8, 0x20#8, 0x30#8, 0x31#8, 0x32#8, 0x33#8, 0x34#8, 0x35#8, 0x36#8,
          0x37#8, 0x38#8, 0x39#8] := by decide

theorem witness_WrongPayloadLengthFaults :
    (withPort [.deliver ⟨0x04#8, [1, 2, 3, 4, 5, 6, 7]⟩]).port = .deliver ⟨0x04#8, [1, 2, 3, 4, 5, 6, 7]⟩ :: [] ∧
      [1#8, 2, 3, 4, 5, 6, 7].length ≠ 8 ∧ [1#8, 2, 3, 4, 5, 6, 7, 8, 9].length ≠ 8 ∧
      ((0x02#8 : Byte) ∈ [0x00#8, 0x02#8] ∧ [1#8].length ≠ 2 ∧ [1#8, 2, 3].length ≠ 2) ∧
      (0x39#8 : Byte) ∈ [0x10#8, 0x39#8] ∧ [1#8].length ≠ 0 := by decide

theorem witness_right_lengths :
    (⟨0x04#8, [1, 2, 3, 4, 5, 6, 7, 8]⟩ : Frame).payload.length = 8 ∧
      ((0x02#8 : Byte) ∈ [0x00#8, 0x02#8] ∧ (⟨0x02#8, [1, 2]⟩ : Frame).payload.length = 2) ∧
      (0x39#8 : Byte) ∈ [0x10#8, 0x39#8] ∧ (⟨0x39#8, []⟩ : Frame).payload.length = 0 := by decide

theorem witness_StepRunsDecodedFrame :
    (withPort [.deliver ⟨0x00#8, [1, 2]⟩]).port = .deliver ⟨0x00#8, [1, 2]⟩ :: [] ∧
      decode ⟨0x00#8, [1, 2]⟩ = .ok (.ldrawp 1 2) ∧ decode ⟨0x12#8, []⟩ = .error (.illegalOp 0x12#8) ∧
      decodeTableWord 8 0x39 = some .rdTempOut :=
  ⟨rfl, rfl, rfl, rfl⟩

theorem witness_RawDecoderTakesUpperTenBits : (0x40#8 : Byte).toNat / 64 = (0x7F#8 : Byte).toNat / 64 := by decide

theorem witness_load_lengths :
    (withPort [.deliver ⟨0x04#8, []⟩]).port = .deliver ⟨0x04#8, []⟩ :: [] ∧
      (withPort [.deliver ⟨0x00#8, [1]⟩]).port = .deliver ⟨0x00#8, [1]⟩ :: [] ∧
      (withPort [.deliver ⟨0x02#8, [1, 2, 3]⟩]).port = .deliver ⟨0x02#8, [1, 2, 3]⟩ :: [] ∧
      ([] : List Byte).length ≠ 8 ∧ [1#8].length ≠ 2 ∧ [1#8, 2, 3].length ≠ 2 := by decide

/-- The frames of R71 at the head of the port, for the clauses on how an operation is encoded. -/
theorem witness_encoded_frames :
    (withPort [.deliver ⟨0x04#8, [1, 2, 3, 4, 5, 6, 7, 8]⟩]).port = .deliver ⟨0x04#8, [1, 2, 3, 4, 5, 6, 7, 8]⟩ :: [] ∧
      (withPort [.deliver ⟨0x00#8, [1, 2]⟩]).port = .deliver ⟨0x00#8, [1, 2]⟩ :: [] ∧
      (withPort [.deliver ⟨0x02#8, [1, 2]⟩]).port = .deliver ⟨0x02#8, [1, 2]⟩ :: [] ∧
      (withPort [.deliver ⟨0x10#8, []⟩]).port = .deliver ⟨0x10#8, []⟩ :: [] ∧
      (withPort [.deliver ⟨0x11#8, []⟩]).port = .deliver ⟨0x11#8, []⟩ :: [] ∧
      (withPort [.deliver ⟨0x20#8, []⟩]).port = .deliver ⟨0x20#8, []⟩ :: [] := by decide

/-- Loads whose counts later computes use, and two loads in either order. -/
theorem witness_loads_then_computes :
    let s := loaded (some exampleCoefs) (some 1#10) (some 2#10)
    (∃ t, exec (.ldrawp 0x66#8 0x80#8) s = .next t ∧ t.coef = some exampleCoefs ∧ t.rawT = some 2#10 ∧
        ∃ u, exec (.ldrawt 0x7E#8 0xC0#8) t = .next u) ∧
      ∃ t, exec (.ldrawt 0x7E#8 0xC0#8) s = .next t ∧ t.coef = some exampleCoefs ∧ t.rawP = some 1#10 ∧
        ∃ u, exec (.ldrawp 0x66#8 0x80#8) t = .next u :=
  ⟨⟨_, rfl, rfl, rfl, _, rfl⟩, _, rfl, rfl, rfl, _, rfl⟩

theorem witness_MacComputesCompensatedValue : Coefs.inRange .off65535 ⟨0x8001#16, 0x8001#16, 0x8001#16, 0x2000#14⟩ := by
  decide

theorem witness_PressureStageIsMonotone :
    (-51497672704 : Int) ≤ -51497672704 ∧ (-51497672704 : Int) ≤ 51495316223 ∧ (51495316223 : Int) ≤ 51495316223 := by
  decide

theorem witness_ComppCompensatesPressure :
    let s := loaded (some ⟨0, 0, 0, 0⟩) (some 1023#10) (some 0#10)
    s.coef = some ⟨0, 0, 0, 0⟩ ∧ s.rawT = some 0#10 ∧ s.rawP = some 1023#10 ∧ s.params.outArith = .binary64 ∧
      (loaded none none none).coef = none ∧
      ((loaded (some exampleCoefs) (some 1#10) none).coef ≠ none ∧
        (loaded (some exampleCoefs) (some 1#10) none).rawT = none) ∧
      ((loaded (some exampleCoefs) none (some 1#10)).rawT ≠ none ∧
        (loaded (some exampleCoefs) none (some 1#10)).rawP = none) ∧
      (withPort [.deliver ⟨0x10#8, [0]⟩]).port = .deliver ⟨0x10#8, [0]⟩ :: [] ∧ ([0#8] : List Byte) ≠ [] := by decide

theorem witness_TemperatureFallsStrictly :
    (0#10).toNat < (1#10).toNat ∧ (1022#10).toNat < (1023#10).toNat := by decide

theorem witness_OutputsDeterministicAndFinite :
    let s := loaded (some exampleCoefs) (some 410#10) (some 507#10)
    let t := { s with err := .frame, tempOut := some 1#64 }
    s.params = t.params ∧ s.coef = some exampleCoefs ∧ t.coef = some exampleCoefs ∧ s.rawT = some 507#10 ∧
      t.rawT = some 507#10 ∧ s.rawP = some 410#10 ∧ t.rawP = some 410#10 ∧ s.params.outArith = .binary64 := by decide

/-- Two coefficient sets with one accumulator value: b1 counts nothing where Pr is 0. -/
theorem witness_OpaqueArithmeticDependsOnInputsOnly :
    let s := { loaded (some ⟨1, 2, 3, 4⟩) (some 0#10) (some 5#10) with params := ⟨.off65535, .opaqueFunction⟩ }
    let t := { loaded (some ⟨1, 9, 3, 4⟩) (some 0#10) (some 5#10) with params := ⟨.off65536, .opaqueFunction⟩ }
    s.params.outArith = .opaqueFunction ∧ t.params.outArith = .opaqueFunction ∧ s.coef ≠ none ∧ t.coef ≠ none ∧
      s.rawP = some 0#10 ∧ t.rawP = some 0#10 ∧ s.rawT = some 5#10 ∧ t.rawT = some 5#10 ∧
      mac ⟨1, 2, 3, 4⟩ 0#10 5#10 = mac ⟨1, 9, 3, 4⟩ 0#10 5#10 ∧ (∃ u, exec .compp s = .next u) ∧
      (∃ u, exec .compp t = .next u) ∧ (∃ u, exec .compt s = .next u) ∧ (∃ u, exec .compt t = .next u) ∧
      ∃ u, exec .compp { s with params := { s.params with outArith := .binary64 } } = .next u :=
  ⟨rfl, rfl, by decide, by decide, rfl, rfl, rfl, rfl, by decide, ⟨_, rfl⟩, ⟨_, rfl⟩, ⟨_, rfl⟩, ⟨_, rfl⟩, ⟨_, rfl⟩⟩

theorem witness_NoSubnormalArises :
    (-51497672704 : Int) ≤ 1 ∧ (1 : Int) ≤ 51495316223 ∧ (1 : Int) ≠ 0 ∧ (pressureF64 1).units ≠ 0 ∧
      (497#10).toNat ≠ 498 ∧ (temperatureF64 497#10).units ≠ 0 := by decide +kernel

theorem witness_ComptComputesTemperature :
    let s := loaded (some exampleCoefs) (some 1#10) (some 1023#10)
    s.coef ≠ none ∧ s.rawT = some 1023#10 ∧ s.rawT ≠ none ∧ s.rawP ≠ none ∧ s.params.outArith = .binary64 ∧
      (∃ t, exec .compp s = .next t) ∧ (loaded none none none).coef = none ∧
      (loaded (some exampleCoefs) none none).rawT = none ∧
      (withPort [.deliver ⟨0x11#8, [0]⟩]).port = .deliver ⟨0x11#8, [0]⟩ :: [] :=
  ⟨by decide, rfl, by decide, by decide, rfl, ⟨_, rfl⟩, rfl, rfl, rfl⟩

theorem witness_InvcoefDropsCoefficients :
    State.reset.coef = none ∧ (withPort [.deliver ⟨0x20#8, [0]⟩]).port = .deliver ⟨0x20#8, [0]⟩ :: [] ∧
      ([0#8] : List Byte) ≠ [] ∧ ∃ t, exec .invcoef (loaded (some exampleCoefs) none none) = .next t :=
  ⟨rfl, rfl, by decide, ⟨_, rfl⟩⟩

theorem witness_Rd :
    (loaded (some exampleCoefs) (some 1023#10) (some 0#10)).coef = some exampleCoefs ∧
      (loaded (some exampleCoefs) (some 1023#10) (some 0#10)).rawP = some 1023#10 ∧
      (loaded (some exampleCoefs) (some 1023#10) (some 0#10)).rawT = some 0#10 ∧
      ({ State.reset with pcomp := some 1#40, presOut := some 2#64, tempOut := some 3#64 } : State).pcomp = some 1#40 ∧
      ({ State.reset with pcomp := some 1#40, presOut := some 2#64, tempOut := some 3#64 } : State).presOut = some 2#64 ∧
      ({ State.reset with pcomp := some 1#40, presOut := some 2#64, tempOut := some 3#64 } : State).tempOut = some 3#64 ∧
      State.reset.coef = none ∧ State.reset.rawP = none ∧ State.reset.rawT = none ∧ State.reset.pcomp = none ∧
      State.reset.presOut = none ∧ State.reset.tempOut = none := by decide

theorem witness_CoefficientReadsBackDecoded :
    State.reset.params.negOffset = .off65535 ∧ ∃ t, exec (.ldcoef 0xFF#8 0xFF#8 0x7F#8 0xFF#8 0x80#8 0 0 0) State.reset = .next t :=
  ⟨rfl, ⟨_, rfl⟩⟩

theorem witness_FaultsArePrecise :
    (withPort [.deliver ⟨0x31#8, []⟩]).port = .deliver ⟨0x31#8, []⟩ :: [] := by decide

theorem witness_FirstErrorIsSticky :
    (∃ t, step { withPort [.reset] with err := .frame } = .next t) ∧
      (∃ t, step { withPort [.deliver ⟨0x10#8, []⟩] with err := .frame } = .next t) ∧ Code.frame ≠ .ok ∧
      (∃ t, step (withPort [.deliver ⟨0x10#8, []⟩]) = .next t) ∧ (withPort [.deliver ⟨0x10#8, []⟩]).err = .ok ∧
      (∃ t, step State.reset = .next t) ∧ State.reset.port = [] ∧
      ∃ t, step (withPort [.sensor (.wait 3)]) = .next t :=
  ⟨⟨_, rfl⟩, ⟨_, rfl⟩, by decide, ⟨_, rfl⟩, rfl, ⟨_, rfl⟩, rfl, ⟨_, rfl⟩⟩

theorem witness_ErrIsFirstFaultOfSequence :
    (withPort [.deliver ⟨0x31#8, []⟩, .deliver ⟨0x10#8, []⟩, .reset]).err = .ok ∧
      (withPort [.deliver ⟨0x31#8, []⟩, .deliver ⟨0x10#8, []⟩, .reset]).port =
        [(⟨0x31#8, []⟩ : Frame), ⟨0x10#8, []⟩].map HostMove.deliver ++ [.reset] := by decide

theorem witness_ResetClearsEveryRegister :
    ({ loaded (some exampleCoefs) (some 1#10) (some 2#10) with port := [.reset] } : State).port = .reset :: [] := by decide

theorem witness_WaitsForTheHost : State.reset.port = [] := rfl

theorem witness_SensorActionsChangeNothing :
    ({ loaded (some exampleCoefs) none none with port := [.sensor (.setPin .reset true)] } : State).port =
      .sensor (.setPin .reset true) :: [] := by decide

theorem witness_OnlyNamedWritersWrite :
    (withPort [.deliver ⟨0x02#8, [1, 2]⟩]).port = .deliver ⟨0x02#8, [1, 2]⟩ :: [] ∧
      ∃ t, step (withPort [.deliver ⟨0x02#8, [1, 2]⟩]) = .next t ∧ t.rawT ≠ State.reset.rawT :=
  ⟨rfl, _, rfl, by decide⟩

/-- A state that meets the invariant with a coefficient set, an accumulator and both outputs. -/
theorem witness_StepKeepsInvariant :
    let s : State :=
      { loaded (some exampleCoefs) (some 1#10) (some 2#10) with
        pcomp := some 0x00B752CE1C#40, presOut := some 0x405825EB100B02C0#64, tempOut := some 0x4037515885FB3707#64
        port := [.deliver ⟨0x10#8, []⟩] }
    Inv s ∧ ∃ t, step s = .next t := by
  refine ⟨⟨?_, ?_, rfl, ?_, ?_⟩, _, rfl⟩
  · rintro c ⟨⟩; decide
  · rintro v ⟨⟩; decide
  · rintro - v ⟨⟩; decide
  · rintro - v ⟨⟩; exact ⟨507#10, by decide⟩

theorem witness_CoefficientsSurviveUntilInvalidated :
    (∀ m ∈ (withPort [.sensor (.setPin .reset true), .deliver ⟨0x10#8, []⟩]).port.take 2,
        m ≠ .reset ∧ ¬ m.loadsCoefs ∧ ¬ m.performs .invcoef) ∧
      ∃ t, Host.Core.run core 2 (withPort [.sensor (.setPin .reset true), .deliver ⟨0x10#8, []⟩]) = .next t := by
  refine ⟨?_, _, rfl⟩
  intro m hm
  simp [withPort] at hm
  rcases hm with rfl | rfl <;> simp [HostMove.performs, HostMove.loadsCoefs, encode]

theorem witness_OldCoefficientsNeverReadAgain :
    (HostMove.deliver ⟨0x20#8, []⟩).performs .invcoef ∧
      (HostMove.deliver ⟨0x04#8, [1, 2, 3, 4, 5, 6, 7, 8]⟩).loadsCoefs :=
  ⟨rfl, _, _, _, _, _, _, _, _, rfl⟩

theorem witness_OnlyComputesConsume :
    Instr.rdStatus ≠ .compp ∧ Instr.rdStatus ≠ .compt ∧ (∃ t, exec .rdStatus State.reset = .next t) ∧
      readiness .compp (loaded (some exampleCoefs) (some 1#10) (some 2#10)) = .ok ∧
      readiness .compt (loaded (some exampleCoefs) none (some 2#10)) = .ok ∧
      ∃ t, exec .compt (loaded (some exampleCoefs) none (some 2#10)) = .next t :=
  ⟨by decide, by decide, ⟨_, rfl⟩, rfl, rfl, ⟨_, rfl⟩⟩

theorem witness_LoadedInputsAlwaysCompute :
    (withPort (deliveries [.ldcoef 0 1 2 3 4 5 6 7, .ldrawp 8 9, .ldrawt 10 11, .compp])).port =
      deliveries [.ldcoef 0 1 2 3 4 5 6 7, .ldrawp 8 9, .ldrawt 10 11, .compp] ++ [] := by decide

theorem witness_PseudoOperationsExpand :
    ({ loaded (some exampleCoefs) none none with port := deliveries (Pseudo.pressure 1 2 3 4).expand } : State).port =
        deliveries (Pseudo.pressure 1 2 3 4).expand ++ [] ∧
      (loaded (some exampleCoefs) none none).coef = some exampleCoefs ∧
      (withPort (deliveries (Pseudo.temperature 3 4).expand)).port = deliveries (Pseudo.temperature 3 4).expand ++ [] ∧
      (withPort (deliveries (Pseudo.reload 1 2 3 4 5 6 7 8).expand)).port =
        deliveries (Pseudo.reload 1 2 3 4 5 6 7 8).expand ++ [] := by decide

/-- A sensor shut down and nothing received, as the host knows it. -/
def asleep : SensorView :=
  ⟨true, false, 0, none, []⟩

/-- R61, R72: a load frame's length is what its command receives. -/
theorem test_receives :
    ∀ c ∈ [SensorCommand.readCoefficients, .readRawPressure, .readRawTemperature], ∀ op ∈ c.loadOp,
      Frame.payloadBytes op = c.receives := by decide

theorem witness_ReadingCompletes :
    let s := withPort (pressureReading false [.shutdown] 5 3 [0, 1, 2, 3, 4, 5, 6, 7] [8, 9] [10, 11])
    let t := { loaded (some exampleCoefs) none none with port := temperatureReading true [] 0 3 [0, 1, 2, 3, 4, 5, 6, 7] [10, 11] }
    s.port = pressureReading ((status s).getLsbD 0) [.shutdown] 5 3 [0, 1, 2, 3, 4, 5, 6, 7] [8, 9] [10, 11] ++ [] ∧
      t.port = temperatureReading ((status t).getLsbD 0) [] 0 3 [0, 1, 2, 3, 4, 5, 6, 7] [10, 11] ++ [] := by
  decide

/-- R63 step 3: with a coefficient set there, a reading neither reads nor loads coefficients. -/
theorem test_temperatureReading :
    temperatureReading true [] 0 3 [0, 1, 2, 3, 4, 5, 6, 7] [10, 11] =
      [.sensor (.wait 0), .sensor (.transact .initiateConversion (some [])), .sensor (.wait 3),
       .sensor (.transact .readRawTemperature (some [10, 11])), .deliver ⟨0x02#8, [10, 11]⟩, .deliver ⟨0x11#8, []⟩,
       .deliver ⟨0x39#8, []⟩] := by decide

/-- The bounds of the host's waits, met exactly and missed by one millisecond (R210, R211). -/
theorem witness_ReadingsMeetHostDuties :
    let reading := fun w k => temperatureReading false [.shutdown] w k [0, 1, 2, 3, 4, 5, 6, 7] [10, 11]
    (asleep.shutdown = true ∧ SensorPin.shutdown ∈ [SensorPin.shutdown] ∧ asleep.reset = false) ∧
      hostDutiesMet asleep State.reset (reading 5 3) = true ∧ hostDutiesMet asleep State.reset (reading 4 3) = false ∧
      hostDutiesMet asleep State.reset (reading 5 2) = false ∧
      ((0x04#8 : Byte) ∈ [0x00#8, 0x02#8, 0x04#8] ∧ (⟨0x04#8, [1]⟩ : Frame) ∉ asleep.received) := by decide

/-- R203 step 1: with a fault recorded a boot needs the reset first. -/
theorem witness_BootMakesReadingsClear :
    let reading := temperatureReading false [.shutdown] 5 3 [0, 1, 2, 3, 4, 5, 6, 7] [10, 11]
    let s := { withPort (.reset :: reading) with err := .frame }
    (asleep.shutdown = true ∧ SensorPin.shutdown ∈ [SensorPin.shutdown] ∧ asleep.reset = false) ∧
      s.port = .reset :: reading ++ [] ∧ bootDutiesMet asleep s reading = false ∧
      bootDutiesMet asleep s (.reset :: reading) = true ∧ bootDutiesMet asleep State.reset reading = true := by decide

theorem witness_BootMakesReadingsClear_pressure :
    let reading := pressureReading false [.shutdown] 5 3 [0, 1, 2, 3, 4, 5, 6, 7] [8, 9] [10, 11]
    (withPort (.reset :: reading)).port = .reset :: reading ++ [] := by decide

/-- Two responses read, then delivered in the other order; a failed transaction between them voids neither; the same
set loaded again; and a pin driven to the level it has keeps the conversion (log entries 10 and 13). -/
theorem witness_DutifulHostGetsNoMissingInput :
    let ms : List HostMove :=
      [.sensor (.transact .readCoefficients (some [0, 1, 2, 3, 4, 5, 6, 7])), .sensor (.setPin .shutdown false),
       .sensor (.transact .readRawPressure (some [8, 9])), .sensor (.transact .readRawTemperature none),
       .sensor (.transact .readRawTemperature (some [10, 11])), .deliver ⟨0x02#8, [10, 11]⟩, .deliver ⟨0x00#8, [8, 9]⟩,
       .deliver ⟨0x04#8, [0, 1, 2, 3, 4, 5, 6, 7]⟩, .deliver ⟨0x20#8, []⟩, .deliver ⟨0x04#8, [0, 1, 2, 3, 4, 5, 6, 7]⟩,
       .deliver ⟨0x10#8, []⟩]
    (withPort ms).port = ms ∧ hostDutiesMet ⟨false, false, 5, some 3, []⟩ (withPort ms) ms = true ∧
      ∀ m ∈ ms, ∀ f, m = .deliver f →
        isLoadFrame f = true ∨ f ∈ [Instr.compp, .compt, .invcoef, .rdStatus].map encode := by
  refine ⟨rfl, by decide, ?_⟩
  intro m hm f hf
  subst hf
  simp at hm
  rcases hm with rfl | rfl | rfl | rfl | rfl | rfl <;> decide

/-- A compute without its inputs breaks the host's duties (R64). -/
theorem test_inputsLoaded : inputsLoaded State.reset [.deliver ⟨0x10#8, []⟩] = false := by decide

theorem witness_AssemblerSplitsLines :
    let before := [' ', '\t']
    let word := ['r', 'd']
    let ops := [[' ', '1', '0'], ['A', ' '], []]
    (∀ c ∈ before ++ [' '], isBlank c = true) ∧ word ≠ [] ∧ (∀ c ∈ word, isBlank c = false ∧ c ≠ ';') ∧ ops ≠ [] ∧
      ops.map trim ≠ [[]] ∧ (∀ o ∈ ops, ',' ∉ o ∧ ';' ∉ o) ∧
      lineOperands (before ++ word ++ [' '] ++ [','].intercalate ops ++ [';', 'x']) = [['1', '0'], ['A'], []] :=
  ⟨by simp [isBlank], by decide, by simp [isBlank], by decide, by decide, by decide, by decide⟩

theorem witness_AssemblerEncodesItsOperands :
    let line := "ldrawp 0xFF, 0".toList
    (lineOperands line).map numeral = [255, 0].map some ∧ lineWord line = "LDRAWP".toList ∧
      ((lineOperands "COMPP".toList).map numeral = ([] : List Nat).map some ∧ lineWord "COMPP".toList = "COMPP".toList) ∧
      ((lineOperands "PRESSURE 1,2,3,255".toList).map numeral = [1, 2, 3, 255].map some ∧
        lineWord "PRESSURE 1,2,3,255".toList = "PRESSURE".toList) ∧
      lineWord "RELOAD 1".toList = "RELOAD".toList ∧ lineWord "TEMPERATURE 1".toList = "TEMPERATURE".toList ∧
      (lineWord "RD 9".toList = "RD".toList ∧ lineOperands "RD 9".toList = [['9']] ∧ numeralIn 10 ['9'] = some 9) ∧
      lineOperands "RD TEMP_OUT".toList = ["TEMP_OUT".toList] :=
  ⟨by decide, by decide, by decide, by decide, by decide, by decide, by decide, by decide⟩

theorem witness_AssemblerRefusesByNameAndLine :
    (lineBody "NOP".toList ≠ [] ∧ ∀ e ∈ mnemonics, e.1 ≠ lineWord "NOP".toList) ∧
      (lineWord "LDRAWP 1".toList = "LDRAWP".toList ∧
        (lineOperands "LDRAWP 1".toList).length ≠ Mnemonic.ldrawp.operandCount) ∧
      (lineOperands "LDRAWP 255, 256".toList = ["255".toList] ++ "256".toList :: [] ∧
        numeral "255".toList = some 255 ∧ numeral "256".toList = some 256) ∧
      (lineWord "RD 10".toList = ['R', 'D'] ∧ lineOperands "RD 10".toList = [['1', '0']] ∧
        numeralIn 10 ['1', '0'] = some 10) ∧
      (∃ is, assembleLine "COMPT".toList = .ok is) ∧ assembleLine "NOP".toList = .error .unknownMnemonic :=
  ⟨by decide, by decide, by decide, by decide, ⟨[.compt], by decide⟩, by decide⟩

/-- R79: the refusals reach the line. -/
theorem test_assembleLine_refuses :
    assembleLine "LDRAWP 255, 256".toList = .error .byteRange ∧ assembleLine "RD 10".toList = .error .rdIndex := by decide

end Sys2Proof.Tests
end

section
/-! PROOFS. The scope of the engine (spec/00_scope.md). -/

namespace Sys2Proof.Machine

/-- Settles O40: with an empty port, `step` takes its waiting branch (R7, R20, R201; that a wait is a step is log
entry 4). -/
theorem waitsForTheHost : Obligations.WaitsForTheHost := by
  unfold Obligations.WaitsForTheHost
  intro s noMove
  exact step_idle noMove

end Sys2Proof.Machine
end

section
/-! PROOFS. What the decoder answers (spec/30_encoding.md R70 to R75), and the code of a frame's response (R173). -/

namespace Sys2Proof.Machine

/-! The three payload formats (R71): the one accepted length, and FRAME for every other. -/

theorem decodeZ_ok {op : Byte} {i j : Instr} {p : List Byte} : decodeZ op i p = .ok j ↔ p = [] ∧ i = j := by
  cases p <;> simp [decodeZ]

theorem decodeL2_ok {op : Byte} {k : Byte → Byte → Instr} {j : Instr} {p : List Byte} :
    decodeL2 op k p = .ok j ↔ ∃ m l, p = [m, l] ∧ k m l = j := by
  unfold decodeL2
  split <;> simp_all

theorem decodeL8_ok {op : Byte} {k : Byte → Byte → Byte → Byte → Byte → Byte → Byte → Byte → Instr}
    {j : Instr} {p : List Byte} :
    decodeL8 op k p = .ok j ↔
      ∃ p0 p1 p2 p3 p4 p5 p6 p7, p = [p0, p1, p2, p3, p4, p5, p6, p7] ∧ k p0 p1 p2 p3 p4 p5 p6 p7 = j := by
  unfold decodeL8
  split <;> simp_all

theorem decodeZ_error {op : Byte} {i : Instr} {p : List Byte} {r : Reject} (h : decodeZ op i p = .error r) :
    p.length ≠ 0 ∧ r = .frame op p.length := by
  cases p with
  | nil => cases h
  | cons _ _ => cases h; simp

theorem decodeL2_error {op : Byte} {k : Byte → Byte → Instr} {p : List Byte} {r : Reject}
    (h : decodeL2 op k p = .error r) : p.length ≠ 2 ∧ r = .frame op p.length := by
  unfold decodeL2 at h
  split at h
  · cases h
  · next notTwo =>
    cases h
    refine ⟨fun hl => ?_, rfl⟩
    obtain ⟨m, l, rfl⟩ := List.length_eq_two.mp hl
    exact notTwo m l rfl

theorem decodeL8_error {op : Byte} {k : Byte → Byte → Byte → Byte → Byte → Byte → Byte → Byte → Instr}
    {p : List Byte} {r : Reject} (h : decodeL8 op k p = .error r) : p.length ≠ 8 ∧ r = .frame op p.length := by
  unfold decodeL8 at h
  split at h
  · cases h
  · next notEight =>
    cases h
    refine ⟨fun hl => ?_, rfl⟩
    match p, hl with
    | [p0, p1, p2, p3, p4, p5, p6, p7], _ => exact notEight p0 p1 p2 p3 p4 p5 p6 p7 rfl

/-! The RD opcodes `0011 rrrr` (R34, R70). -/

theorem encode_of_rdOfIndex :
    ∀ op : Byte, op.extractLsb' 4 4 = 0x3#4 → ∀ i ∈ rdOfIndex (op.setWidth 4), encode i = ⟨op, []⟩ := by
  decide

theorem legalOp_of_rdOfIndex_none :
    ∀ op : Byte, op.extractLsb' 4 4 = 0x3#4 → rdOfIndex (op.setWidth 4) = none → Frame.legalOp op = false := by
  decide

theorem legalOp_encode (i : Instr) : Frame.legalOp (encode i).op = true := by
  cases i <;> rfl

theorem length_payload_encode (i : Instr) : (encode i).payload.length = Frame.payloadBytes (encode i).op := by
  cases i <;> rfl

/-- An opcode outside the rows of R70 is reserved (R75). -/
theorem legalOp_of_other :
    ∀ op : Byte, op.toNat ∉ [0x00, 0x02, 0x04, 0x10, 0x11, 0x20] → op.extractLsb' 4 4 ≠ 0x3#4 →
      Frame.legalOp op = false := by
  decide

/-! The decoder as a whole. -/

/-- What the decoder accepts is the encoding of what it answers (R74). -/
theorem eq_encode_of_decode {f : Frame} {i : Instr} (h : decode f = .ok i) : f = encode i := by
  obtain ⟨op, p⟩ := f
  unfold decode at h
  split at h
  case h_1 hop =>
    obtain rfl : op = 0x00#8 := BitVec.eq_of_toNat_eq hop
    obtain ⟨m, l, rfl, rfl⟩ := decodeL2_ok.mp h
    rfl
  case h_2 hop =>
    obtain rfl : op = 0x02#8 := BitVec.eq_of_toNat_eq hop
    obtain ⟨m, l, rfl, rfl⟩ := decodeL2_ok.mp h
    rfl
  case h_3 hop =>
    obtain rfl : op = 0x04#8 := BitVec.eq_of_toNat_eq hop
    obtain ⟨p0, p1, p2, p3, p4, p5, p6, p7, rfl, rfl⟩ := decodeL8_ok.mp h
    rfl
  case h_4 hop =>
    obtain rfl : op = 0x10#8 := BitVec.eq_of_toNat_eq hop
    obtain ⟨rfl, rfl⟩ := decodeZ_ok.mp h
    rfl
  case h_5 hop =>
    obtain rfl : op = 0x11#8 := BitVec.eq_of_toNat_eq hop
    obtain ⟨rfl, rfl⟩ := decodeZ_ok.mp h
    rfl
  case h_6 hop =>
    obtain rfl : op = 0x20#8 := BitVec.eq_of_toNat_eq hop
    obtain ⟨rfl, rfl⟩ := decodeZ_ok.mp h
    rfl
  case h_7 =>
    split at h
    case isFalse => cases h
    case isTrue hrd =>
      unfold decodeRd at h
      split at h
      · next j hj =>
        obtain ⟨rfl, rfl⟩ := decodeZ_ok.mp h
        exact (encode_of_rdOfIndex op hrd _ hj).symm
      · cases h

/-- A frame is rejected for a reserved opcode, or else for its payload's length (R74). -/
theorem decode_error_cases {f : Frame} {r : Reject} (h : decode f = .error r) :
    (Frame.legalOp f.op = false ∧ r = .illegalOp f.op) ∨
      (Frame.legalOp f.op = true ∧ f.payload.length ≠ Frame.payloadBytes f.op ∧
        r = .frame f.op f.payload.length) := by
  obtain ⟨op, p⟩ := f
  unfold decode at h
  split at h
  case h_1 hop =>
    obtain rfl : op = 0x00#8 := BitVec.eq_of_toNat_eq hop
    exact .inr ⟨rfl, decodeL2_error h⟩
  case h_2 hop =>
    obtain rfl : op = 0x02#8 := BitVec.eq_of_toNat_eq hop
    exact .inr ⟨rfl, decodeL2_error h⟩
  case h_3 hop =>
    obtain rfl : op = 0x04#8 := BitVec.eq_of_toNat_eq hop
    exact .inr ⟨rfl, decodeL8_error h⟩
  case h_4 hop =>
    obtain rfl : op = 0x10#8 := BitVec.eq_of_toNat_eq hop
    exact .inr ⟨rfl, decodeZ_error h⟩
  case h_5 hop =>
    obtain rfl : op = 0x11#8 := BitVec.eq_of_toNat_eq hop
    exact .inr ⟨rfl, decodeZ_error h⟩
  case h_6 hop =>
    obtain rfl : op = 0x20#8 := BitVec.eq_of_toNat_eq hop
    exact .inr ⟨rfl, decodeZ_error h⟩
  case h_7 h00 h02 h04 h10 h11 h20 =>
    split at h
    case isFalse hrd => cases h; exact .inl ⟨legalOp_of_other op (by simp_all) hrd, rfl⟩
    case isTrue hrd =>
      unfold decodeRd at h
      split at h
      · next j hj =>
        have hi := encode_of_rdOfIndex op hrd _ hj
        have legal := legalOp_encode j
        have len := length_payload_encode j
        rw [hi] at legal len
        obtain ⟨hne, hr⟩ := decodeZ_error h
        exact .inr ⟨legal, len ▸ hne, hr⟩
      · next hnone => cases h; exact .inl ⟨legalOp_of_rdOfIndex_none op hrd hnone, rfl⟩

/-! The code of a frame's response (R173). -/

theorem frameCode_of_decode {f : Frame} {i : Instr} (h : decode f = .ok i) (s : State) :
    frameCode f s = readiness i s := by
  have hf := eq_encode_of_decode h
  have legal := legalOp_encode i
  have len := length_payload_encode i
  rw [← hf] at legal len
  simp [frameCode, legal, len, h]

theorem frameCode_of_reject {f : Frame} {r : Reject} (h : decode f = .error r) (s : State) :
    frameCode f s = rejectCode r := by
  rcases decode_error_cases h with ⟨reserved, rfl⟩ | ⟨legal, len, rfl⟩
  · simp [frameCode, reserved, rejectCode]
  · simp [frameCode, legal, len, rejectCode]

theorem rejectCode_ne_ok (r : Reject) : rejectCode r ≠ .ok := by
  cases r <;> simp [rejectCode]

end Sys2Proof.Machine
end

section
/-! PROOFS. What a performed frame and a step can do to the registers (spec/10_state.md R40), said once: every
invariant of the state is a case analysis on `Effect` and `step_cases`. -/

namespace Sys2Proof.Machine

/-- What an operation that succeeds does to the registers, before its response is added: `Effect s i u` says that
`i` takes `s` to `u`. The form of `exec_cases` to do cases on. -/
inductive Effect (s : State) : Instr → State → Prop where
  | ldrawp (m l : Byte) : Effect s (.ldrawp m l) (s.setRawP (some (raw m l)))
  | ldrawt (m l : Byte) : Effect s (.ldrawt m l) (s.setRawT (some (raw m l)))
  | ldcoef (p0 p1 p2 p3 p4 p5 p6 p7 : Byte) :
      Effect s (.ldcoef p0 p1 p2 p3 p4 p5 p6 p7)
        (s.setCoef (some (coefsOf s.params.negOffset p0 p1 p2 p3 p4 p5 p6 p7)))
  | compp {c : Coefs} {pr tr : BitVec 10} (coef : s.coef = some c) (rawP : s.rawP = some pr) (rawT : s.rawT = some tr) :
      Effect s .compp (compensatePressure c pr tr s)
  | compt {tr : BitVec 10} (coef : s.coef ≠ none) (rawT : s.rawT = some tr) :
      Effect s .compt (compensateTemperature tr s)
  | invcoef : Effect s .invcoef (s.setCoef none)
  | read {i : Instr} (notCompp : i ≠ .compp) (notCompt : i ≠ .compt) : Effect s i s

/-- A performed frame faults with its code, or has the effect of the operation it encodes and answers OK. -/
theorem perform_effect {f : Frame} {s t : State} (h : perform f s = .next t) :
    (frameCode f s ≠ .ok ∧ t = faulted (frameCode f s) s) ∨
      (frameCode f s = .ok ∧ ∃ i u v, f = encode i ∧ Effect s i u ∧ t = u.respond .ok v) := by
  rcases perform_cases f s with ⟨i, hd, hp⟩ | ⟨r, hd, hp⟩
  · rw [frameCode_of_decode hd]
    rw [hp] at h
    refine (exec_cases h).imp_right ?_
    rintro ⟨ready, v, effect⟩
    refine ⟨ready, i, ?_⟩
    have hf := eq_encode_of_decode hd
    rcases effect with ⟨m, l, rfl, rfl⟩ | ⟨m, l, rfl, rfl⟩ | ⟨p0, p1, p2, p3, p4, p5, p6, p7, rfl, rfl⟩ |
      ⟨rfl, c, pr, tr, coef, rawP, rawT, rfl⟩ | ⟨rfl, tr, coef, rawT, rfl⟩ | ⟨rfl, rfl⟩ |
      ⟨notCompp, notCompt, rfl⟩
    · exact ⟨_, v, hf, .ldrawp m l, rfl⟩
    · exact ⟨_, v, hf, .ldrawt m l, rfl⟩
    · exact ⟨_, v, hf, .ldcoef p0 p1 p2 p3 p4 p5 p6 p7, rfl⟩
    · exact ⟨_, v, hf, .compp coef rawP rawT, rfl⟩
    · exact ⟨_, v, hf, .compt coef rawT, rfl⟩
    · exact ⟨_, v, hf, .invcoef, rfl⟩
    · exact ⟨_, v, hf, .read notCompp notCompt, rfl⟩
  · rw [frameCode_of_reject hd]
    rw [hp] at h
    cases h
    exact .inl ⟨rejectCode_ne_ok r, rfl⟩

/-- A step waits, or takes the move at the head of the port. -/
theorem step_cases {s t : State} (h : step s = .next t) :
    (s.port = [] ∧ t = s) ∨
      (∃ ms, s.port = .reset :: ms ∧ t = (s.setPort ms).engineReset) ∨
      (∃ a ms, s.port = .sensor a :: ms ∧ t = s.setPort ms) ∨
      ∃ f ms, s.port = .deliver f :: ms ∧ perform f (s.setPort ms) = .next t := by
  match hp : s.port with
  | [] => rw [step_idle hp] at h; cases h; exact .inl ⟨rfl, rfl⟩
  | .reset :: ms => rw [step_reset hp] at h; cases h; exact .inr <| .inl ⟨ms, rfl, rfl⟩
  | .sensor a :: ms => rw [step_sensor hp] at h; cases h; exact .inr <| .inr <| .inl ⟨a, ms, rfl, rfl⟩
  | .deliver f :: ms => rw [step_deliver hp] at h; exact .inr <| .inr <| .inr ⟨f, ms, rfl, h⟩

/-- A step always answers a next state (R174, R175). -/
theorem step_answers (s : State) : ∃ t, step s = .next t := by
  match hp : s.port with
  | [] => exact ⟨_, step_idle hp⟩
  | m :: ms => exact ⟨_, step_eq_afterMove hp⟩

/-! The two computes, field by field (R124, R130). -/

section
variable (c : Coefs) (pr tr : BitVec 10) (s : State)

@[simp] theorem compensatePressure_params : (compensatePressure c pr tr s).params = s.params := rfl
@[simp] theorem compensatePressure_coef : (compensatePressure c pr tr s).coef = s.coef := rfl
@[simp] theorem compensatePressure_rawP : (compensatePressure c pr tr s).rawP = none := rfl
@[simp] theorem compensatePressure_rawT : (compensatePressure c pr tr s).rawT = none := rfl
@[simp] theorem compensatePressure_pcomp :
    (compensatePressure c pr tr s).pcomp = some (BitVec.ofInt 40 (mac c pr tr)) := rfl
@[simp] theorem compensatePressure_presOut :
    (compensatePressure c pr tr s).presOut = some (pressureOut s.params.outArith (mac c pr tr) tr) := rfl
@[simp] theorem compensatePressure_tempOut : (compensatePressure c pr tr s).tempOut = s.tempOut := rfl
@[simp] theorem compensatePressure_err : (compensatePressure c pr tr s).err = s.err := rfl
@[simp] theorem compensatePressure_port : (compensatePressure c pr tr s).port = s.port := rfl
@[simp] theorem compensatePressure_responses : (compensatePressure c pr tr s).responses = s.responses := rfl

@[simp] theorem compensateTemperature_params : (compensateTemperature tr s).params = s.params := rfl
@[simp] theorem compensateTemperature_coef : (compensateTemperature tr s).coef = s.coef := rfl
@[simp] theorem compensateTemperature_rawP : (compensateTemperature tr s).rawP = s.rawP := rfl
@[simp] theorem compensateTemperature_rawT : (compensateTemperature tr s).rawT = none := rfl
@[simp] theorem compensateTemperature_pcomp : (compensateTemperature tr s).pcomp = s.pcomp := rfl
@[simp] theorem compensateTemperature_presOut : (compensateTemperature tr s).presOut = s.presOut := rfl
@[simp] theorem compensateTemperature_tempOut :
    (compensateTemperature tr s).tempOut = some (temperatureOut s.params.outArith tr) := rfl
@[simp] theorem compensateTemperature_err : (compensateTemperature tr s).err = s.err := rfl
@[simp] theorem compensateTemperature_port : (compensateTemperature tr s).port = s.port := rfl
@[simp] theorem compensateTemperature_responses : (compensateTemperature tr s).responses = s.responses := rfl

end

/-- No effect is on `ERR`, the port, the responses or the parameters. -/
theorem Effect.unchanged {i : Instr} {s u : State} (h : Effect s i u) :
    u.err = s.err ∧ u.port = s.port ∧ u.responses = s.responses ∧ u.params = s.params := by
  cases h <;> simp

/-- R55: a performed frame adds one response, whose code is the frame's, takes no move, and sets `ERR` only where it
was 0 (R32). -/
theorem perform_responds {f : Frame} {s t : State} (h : perform f s = .next t) :
    t.port = s.port ∧ (∃ v, t.responses = s.responses ++ [⟨frameCode f s, v⟩]) ∧
      t.err = if s.err = .ok then frameCode f s else s.err := by
  rcases perform_effect h with ⟨-, rfl⟩ | ⟨hok, i, u, v, -, effect, rfl⟩
  · exact ⟨rfl, ⟨none, rfl⟩, rfl⟩
  · obtain ⟨err, port, responses, -⟩ := effect.unchanged
    refine ⟨port, ⟨v, by simp [responses, hok]⟩, ?_⟩
    by_cases clear : s.err = .ok <;> simp [err, hok, clear]

end Sys2Proof.Machine
end

section
/-! PROOFS. The invariant of the state (spec/10_state.md R22 to R31, spec/41_compute_ops.md R121 to R125). -/

namespace Sys2Proof.Machine

/-! The ranges: what the decoder gives, and what the multiply-accumulator makes of it. -/

/-- R22 to R24: no word decodes below the least code of its `NEG_OFFSET`. -/
theorem codeLeast_le_dec (k : NegOffset) (m l : Byte) : codeLeast k ≤ dec k m l := by
  rw [dec_eq]
  cases k <;> simp only [codeLeast, NegOffset.value] <;> split <;> omega

theorem toInt_ofInt_dec (k : NegOffset) (m l : Byte) : (BitVec.ofInt 16 (dec k m l)).toInt = dec k m l :=
  toInt_ofInt_16 (dec_mem_int16 k m l)

theorem coefsOf_inRange (k : NegOffset) (p0 p1 p2 p3 p4 p5 p6 p7 : Byte) :
    (coefsOf k p0 p1 p2 p3 p4 p5 p6 p7).inRange k := by
  simp only [Coefs.inRange, coefsOf, toInt_ofInt_dec]
  exact ⟨codeLeast_le_dec k p0 p1, codeLeast_le_dec k p2 p3, codeLeast_le_dec k p4 p5⟩

/-- A number in a range around 0, times a raw count. -/
theorem mul_count_bounds {lo hi v : Int} (hlo : lo ≤ v) (hhi : v ≤ hi) (lo_nonpos : lo ≤ 0) (hi_nonneg : 0 ≤ hi)
    (n : BitVec 10) : lo * 1023 ≤ v * n.toNat ∧ v * n.toNat ≤ hi * 1023 := by
  have n_le : (n.toNat : Int) ≤ 1023 := by have := n.isLt; omega
  have n_nonneg : (0 : Int) ≤ n.toNat := by positivity
  constructor
  · calc lo * 1023 ≤ lo * n.toNat := mul_le_mul_of_nonpos_left n_le lo_nonpos
      _ ≤ v * n.toNat := mul_le_mul_of_nonneg_right hlo n_nonneg
  · calc v * n.toNat ≤ hi * n.toNat := mul_le_mul_of_nonneg_right hhi n_nonneg
      _ ≤ hi * 1023 := mul_le_mul_of_nonneg_left n_le hi_nonneg

/-- R121: the multiply-accumulator's bounds, for codes that the decoder can give. -/
theorem mac_bounds {k : NegOffset} {c : Coefs} (h : c.inRange k) (pr tr : BitVec 10) :
    macLeast k ≤ mac c pr tr ∧ mac c pr tr ≤ macGreatest := by
  obtain ⟨a0_ge, b1_ge, b2_ge⟩ := h
  have a0_lt := c.a0.toInt_lt
  have b1_lt := c.b1.toInt_lt
  have b2_lt := c.b2.toInt_lt
  have c12_ge := c.c12.le_toInt
  have c12_lt := c.c12.toInt_lt
  have least_nonpos : codeLeast k ≤ 0 := by cases k <;> decide
  have c12_tr := mul_count_bounds (lo := -8192) (hi := 8191) c12_ge (by omega) (by omega) (by omega) tr
  have b2_tr := mul_count_bounds (hi := 32767) b2_ge (by omega) least_nonpos (by omega) tr
  have b1_pr := mul_count_bounds (lo := codeLeast k * 2 ^ 9 - 8192 * 1023) (hi := 32767 * 2 ^ 9 + 8191 * 1023)
    (v := c.b1.toInt * 2 ^ 9 + c.c12.toInt * tr.toNat) (by omega) (by omega) (by omega) (by omega) pr
  have least : macLeast k =
      (codeLeast k * 2 ^ 9 - 8192 * 1023) * 1023 + codeLeast k * 2 ^ 19 + codeLeast k * 1023 * 2 ^ 8 := by
    cases k <;> rfl
  unfold mac macGreatest
  omega

/-- R29: the 40 bits of `PCOMP` hold every accumulator value exactly. -/
theorem toInt_ofInt_mac {k : NegOffset} {c : Coefs} (h : c.inRange k) (pr tr : BitVec 10) :
    (BitVec.ofInt 40 (mac c pr tr)).toInt = mac c pr tr := by
  obtain ⟨least, greatest⟩ := mac_bounds h pr tr
  have least' : -51497672704 ≤ macLeast k := by cases k <;> decide
  unfold macGreatest at greatest
  rw [BitVec.toInt_ofInt, Int.bmod_eq_of_le] <;> omega

/-! `Inv`, by what a step can do. -/

theorem inv_of_no_value {s : State} (coef : s.coef = none) (pcomp : s.pcomp = none) (presOut : s.presOut = none)
    (tempOut : s.tempOut = none) : Inv s where
  coef := by simp [coefInv, coef]
  pcomp := by simp [pcompInv, pcomp]
  pair := by simp [pairInv, pcomp, presOut]
  pres := by simp [presInv, pcomp]
  temp := by simp [tempInv, tempOut]

/-- `Inv` speaks of the parameters, the coefficients and the results only. -/
theorem Inv.of_same_results {s t : State} (h : Inv s) (params : t.params = s.params) (coef : t.coef = s.coef)
    (pcomp : t.pcomp = s.pcomp) (presOut : t.presOut = s.presOut) (tempOut : t.tempOut = s.tempOut) : Inv t where
  coef := by rw [coefInv, coef, params]; exact h.coef
  pcomp := by rw [pcompInv, pcomp, params]; exact h.pcomp
  pair := by rw [pairInv, pcomp, presOut]; exact h.pair
  pres := by rw [presInv, params, pcomp, presOut]; exact h.pres
  temp := by rw [tempInv, params, tempOut]; exact h.temp

theorem Inv.setCoef {s : State} (h : Inv s) {c : Option Coefs} (hc : ∀ d ∈ c, d.inRange s.params.negOffset) :
    Inv (s.setCoef c) where
  coef := hc
  pcomp := h.pcomp
  pair := h.pair
  pres := h.pres
  temp := h.temp

theorem Inv.compensatePressure {s : State} (h : Inv s) {c : Coefs} (hc : s.coef = some c) (pr tr : BitVec 10) :
    Inv (compensatePressure c pr tr s) where
  coef := h.coef
  pcomp := by
    rintro v ⟨⟩
    rw [toInt_ofInt_mac (h.coef c hc)]
    exact mac_bounds (h.coef c hc) pr tr
  pair := rfl
  pres := by
    rintro binary64 v ⟨⟩
    simp only [compensatePressure_params] at binary64
    rw [toInt_ofInt_mac (h.coef c hc), compensatePressure_presOut, binary64, pressureOut]
  temp := h.temp

theorem Inv.compensateTemperature {s : State} (h : Inv s) (tr : BitVec 10) : Inv (compensateTemperature tr s) where
  coef := h.coef
  pcomp := h.pcomp
  pair := h.pair
  pres := h.pres
  temp := by
    rintro binary64 v ⟨⟩
    simp only [compensateTemperature_params] at binary64
    exact ⟨tr, by rw [binary64, temperatureOut]⟩

theorem Effect.inv {i : Instr} {s u : State} (effect : Effect s i u) (h : Inv s) : Inv u := by
  cases effect with
  | ldrawp => exact h.of_same_results rfl rfl rfl rfl rfl
  | ldrawt => exact h.of_same_results rfl rfl rfl rfl rfl
  | ldcoef p0 p1 p2 p3 p4 p5 p6 p7 =>
    refine h.setCoef ?_
    rintro d ⟨⟩
    exact coefsOf_inRange _ p0 p1 p2 p3 p4 p5 p6 p7
  | compp hc => exact h.compensatePressure hc _ _
  | compt => exact h.compensateTemperature _
  | invcoef => exact h.setCoef (by simp)
  | read => exact h

theorem Inv.perform {f : Frame} {s t : State} (h : Inv s) (hp : perform f s = .next t) : Inv t := by
  rcases perform_effect hp with ⟨-, rfl⟩ | ⟨-, i, u, v, -, effect, rfl⟩
  · exact h.of_same_results rfl rfl rfl rfl rfl
  · exact (effect.inv h).of_same_results rfl rfl rfl rfl rfl

theorem Inv.setPort {s : State} (h : Inv s) (ms : List HostMove) : Inv (s.setPort ms) :=
  h.of_same_results rfl rfl rfl rfl rfl

/-- Settles O43: a step waits, resets, passes over a move at the sensor, or performs a frame, and the only effects of a
frame that `Inv` speaks of are LDCOEF's decoded codes and the two computes' results. -/
theorem stepKeepsInvariant : Obligations.StepKeepsInvariant := by
  unfold Obligations.StepKeepsInvariant
  intro s t h hstep
  rcases step_cases hstep with ⟨-, rfl⟩ | ⟨ms, -, rfl⟩ | ⟨a, ms, -, rfl⟩ | ⟨f, ms, -, hp⟩
  · exact h
  · exact inv_of_no_value rfl rfl rfl rfl
  · exact h.setPort ms
  · exact (h.setPort ms).perform hp

/-- Settles O44: after reset no register that `Inv` speaks of holds a value (R39). -/
theorem invariantHoldsAtReset : Obligations.InvariantHoldsAtReset := by
  unfold Obligations.InvariantHoldsAtReset
  exact inv_of_no_value rfl rfl rfl rfl

end Sys2Proof.Machine
end

section
/-! PROOFS. `ERR` and the STATUS view (spec/10_state.md R32, R33, spec/60_exceptions.md R170, R171). -/

namespace Sys2Proof.Machine

/-! `STATUS` -/

theorem code_bits_le (e : Code) : e.bits.toNat ≤ 6 := by
  cases e <;> decide

/-- R33: the fields of the view, least significant first. -/
theorem status_fields (s : State) :
    (status s).extractLsb' 0 1 = validBit s.coef ∧ (status s).extractLsb' 1 1 = validBit s.rawP ∧
      (status s).extractLsb' 2 1 = validBit s.rawT ∧ (status s).extractLsb' 3 1 = validBit s.pcomp ∧
      (status s).extractLsb' 4 1 = validBit s.presOut ∧ (status s).extractLsb' 5 1 = validBit s.tempOut ∧
      (status s).extractLsb' 6 2 = 0#2 ∧ (status s).extractLsb' 8 3 = s.err.bits ∧
      (status s).extractLsb' 11 5 = 0#5 := by
  unfold status
  simp (disch := decide) only [BitVec.extractLsb'_append_eq_of_le, BitVec.extractLsb'_append_eq_of_add_le]
  simp

/-- A valid bit read as one bit of a word. -/
theorem getLsbD_of_extractLsb' {α : Type} {w i : Nat} {x : BitVec w} {r : Option α}
    (h : x.extractLsb' i 1 = validBit r) : x.getLsbD i = r.isSome := by
  simpa [validBit] using congrArg (BitVec.getLsbD · 0) h

/-- Settles O31: every field is read off the concatenation of R33 (`status_fields`). -/
theorem statusFieldsAreTheFlags : Obligations.StatusFieldsAreTheFlags := by
  unfold Obligations.StatusFieldsAreTheFlags
  intro s
  obtain ⟨coef, rawP, rawT, pcomp, presOut, tempOut, low, err, high⟩ := status_fields s
  refine ⟨getLsbD_of_extractLsb' coef, getLsbD_of_extractLsb' rawP, getLsbD_of_extractLsb' rawT,
    getLsbD_of_extractLsb' pcomp, getLsbD_of_extractLsb' presOut, getLsbD_of_extractLsb' tempOut, low, err, ?_, high⟩
  rw [err]
  exact code_bits_le s.err

/-! `ERR` -/

/-- Settles O35: by the move that the step takes; at a frame `ERR` is what `perform_responds` says. -/
theorem firstErrorIsSticky : Obligations.FirstErrorIsSticky := by
  unfold Obligations.FirstErrorIsSticky
  intro s t hstep
  rcases step_cases hstep with ⟨port, rfl⟩ | ⟨ms, port, rfl⟩ | ⟨a, ms, port, rfl⟩ | ⟨f, ms, port, hp⟩
  · simp [port]
  · simp [port]
  · simp [port]
  · obtain ⟨-, -, err⟩ := perform_responds hp
    simp only [State.setPort_err, frameCode_setPort] at err
    simp only [port]
    refine ⟨by simp, fun _ sticky => by rw [err, if_neg sticky], ?_, by simp, by simp⟩
    rintro g ns ⟨⟩ clear
    rw [err, if_pos clear]

/-- A run over a list of frames: one response each, and `ERR` the first code that is not 0, its own before theirs (R32,
R55). -/
theorem run_deliveries (fs : List Frame) (ms : List HostMove) :
    ∀ s : State, s.port = fs.map HostMove.deliver ++ ms →
      ∃ (t : State) (rs : List Response),
        Host.Core.run core fs.length s = .next t ∧ t.port = ms ∧ t.responses = s.responses ++ rs ∧
          rs.length = fs.length ∧ t.err = ((s.err :: rs.map Response.code).find? (fun e => e ≠ .ok)).getD .ok := by
  induction fs with
  | nil =>
    intro s port
    refine ⟨s, [], run_zero s, port, by simp, rfl, ?_⟩
    by_cases clear : s.err = .ok <;> simp [clear]
  | cons f fs ih =>
    intro s port
    obtain ⟨u, hu⟩ := perform_answers f (s.setPort (fs.map HostMove.deliver ++ ms))
    obtain ⟨uport, ⟨v, uresponses⟩, uerr⟩ := perform_responds hu
    obtain ⟨t, rs, hrun, tport, tresponses, len, terr⟩ := ih u uport
    refine ⟨t, ⟨frameCode f s, v⟩ :: rs, ?_, tport, ?_, by simp [len], ?_⟩
    · rw [List.length_cons, run_succ ((step_deliver port).trans hu), hrun]
    · simp [tresponses, uresponses]
    · rw [terr, uerr]
      by_cases clear : s.err = .ok <;> simp [clear]

/-- Settles O36: `run_deliveries` from an `ERR` of 0. -/
theorem errIsFirstFaultOfSequence : Obligations.ErrIsFirstFaultOfSequence := by
  unfold Obligations.ErrIsFirstFaultOfSequence
  intro s fs ms clear port
  obtain ⟨t, rs, hrun, tport, responses, len, err⟩ := run_deliveries fs ms s port
  refine ⟨t, rs, hrun, tport, responses, len, ?_⟩
  rw [err, clear, List.find?_cons_of_neg (by simp)]

end Sys2Proof.Machine
end

section
/-! PROOFS. Who writes which register (spec/10_state.md R40), what keeps the coefficient set (R26), and the state after
reset (R39). -/

namespace Sys2Proof.Machine

/-- Settles O42: by the move that the step takes, and at a frame by the effect of its operation. -/
theorem onlyNamedWritersWrite : Obligations.OnlyNamedWritersWrite := by
  unfold Obligations.OnlyNamedWritersWrite
  intro s t m ms port hstep
  rcases step_cases hstep with ⟨idle, -⟩ | ⟨ns, head, rfl⟩ | ⟨a, ns, head, rfl⟩ | ⟨f, ns, head, hp⟩
  · simp [port] at idle
  · obtain ⟨rfl, rfl⟩ : m = .reset ∧ ms = ns := by simpa [port] using head
    simp
  · obtain ⟨rfl, rfl⟩ : m = .sensor a ∧ ms = ns := by simpa [port] using head
    simp
  · obtain ⟨rfl, rfl⟩ : m = .deliver f ∧ ms = ns := by simpa [port] using head
    rcases perform_effect hp with ⟨fault, rfl⟩ | ⟨-, i, u, v, rfl, effect, rfl⟩
    · rw [frameCode_setPort] at fault
      simp [fault]
    · cases effect with
      | ldrawp m l =>
        have writer : ∃ a b, encode (.ldrawp m l) = encode (.ldrawp a b) := ⟨m, l, rfl⟩
        simp [writer]
      | ldrawt m l =>
        have writer : ∃ a b, encode (.ldrawt m l) = encode (.ldrawt a b) := ⟨m, l, rfl⟩
        simp [writer]
      | ldcoef p0 p1 p2 p3 p4 p5 p6 p7 =>
        have writer : (HostMove.deliver (encode (.ldcoef p0 p1 p2 p3 p4 p5 p6 p7))).loadsCoefs :=
          ⟨p0, p1, p2, p3, p4, p5, p6, p7, rfl⟩
        simp [writer]
      | compp => simp
      | compt => simp
      | invcoef => simp
      | read => simp

/-- A step at a move that is no reset, LDCOEF or INVCOEF keeps the coefficient set (R26). -/
theorem step_keeps_coef {s t : State} {m : HostMove} {ms : List HostMove} (port : s.port = m :: ms)
    (hm : m ≠ .reset ∧ ¬ m.loadsCoefs ∧ ¬ m.performs .invcoef) (hstep : step s = .next t) :
    t.port = ms ∧ t.coef = s.coef := by
  obtain ⟨-, tport, coef, -⟩ := onlyNamedWritersWrite s t m ms port hstep
  obtain ⟨noReset, noLoad, noInvalidate⟩ := hm
  refine ⟨tport, by_contra fun changed => ?_⟩
  rcases coef changed with h | h | h
  · exact noReset h
  · exact noLoad h
  · exact noInvalidate h

/-- Settles O45, by induction on the number of steps: each keeps the set, waiting included. -/
theorem coefficientsSurviveUntilInvalidated : Obligations.CoefficientsSurviveUntilInvalidated := by
  unfold Obligations.CoefficientsSurviveUntilInvalidated
  intro k
  induction k with
  | zero =>
    intro s t _ hrun
    cases hrun
    rfl
  | succ k ih =>
    intro s t moves hrun
    obtain ⟨u, hu⟩ := step_answers s
    rw [run_succ hu] at hrun
    rcases port : s.port with _ | ⟨m, ms⟩
    · obtain rfl : s = u := by simpa [step_idle port] using hu
      exact ih s t (by simp [port]) hrun
    · rw [port, List.take_succ_cons, List.forall_mem_cons] at moves
      obtain ⟨hm, later⟩ := moves
      obtain ⟨uport, coef⟩ := step_keeps_coef port hm hu
      rw [← coef]
      exact ih u t (by rwa [uport]) hrun

/-- Settles O39: after reset no precondition of a read or a compute holds (`exec_of_not_ready`); that the parameters of
SCE-v1 stand in the state is log entry 3. -/
theorem nothingReadableAfterReset : Obligations.NothingReadableAfterReset := by
  unfold Obligations.NothingReadableAfterReset
  refine ⟨?_, exec_of_not_ready (by decide), exec_of_not_ready (by decide), by decide, rfl⟩
  intro i hi
  have code : readiness i State.reset = .noData := by revert i; decide
  rw [← code]
  exact exec_of_not_ready (by simp [code])

end Sys2Proof.Machine
end

section
/-! PROOFS. A run as what its moves do one after the other (spec/20_memory.md R55, R59), and the rules that take no more
than one step to see. -/

namespace Sys2Proof.Machine

/-! A list of the host's moves, each taken alone. -/

/-- The state after a list of moves, oldest first. -/
def afterMoves : List HostMove → State → State
  | [], s => s
  | m :: ms, s => afterMoves ms (afterMove m s)

@[simp] theorem afterMoves_nil (s : State) : afterMoves [] s = s := rfl

@[simp] theorem afterMoves_cons (m : HostMove) (ms : List HostMove) (s : State) :
    afterMoves (m :: ms) s = afterMoves ms (afterMove m s) := rfl

theorem afterMoves_append (ms ns : List HostMove) (s : State) :
    afterMoves (ms ++ ns) s = afterMoves ns (afterMoves ms s) := by
  induction ms generalizing s with
  | nil => rfl
  | cons m ms ih => exact ih (afterMove m s)

@[simp] theorem setPort_setPort (s : State) (ms ns : List HostMove) : (s.setPort ms).setPort ns = s.setPort ns := rfl

@[simp] theorem afterMoves_setPort (ms q r : List HostMove) (s : State) :
    (afterMoves ms (s.setPort q)).setPort r = (afterMoves ms s).setPort r := by
  cases ms <;> simp

/-- Any number of steps: the oldest moves taken in order, and past the last of them nothing. -/
theorem run_eq_afterMoves (k : Nat) (s : State) :
    Host.Core.run core k s = .next ((afterMoves (s.port.take k) s).setPort (s.port.drop k)) := by
  induction k generalizing s with
  | zero => rfl
  | succ k ih =>
    rcases port : s.port with _ | ⟨m, ms⟩
    · rw [run_succ (step_idle port), ih, port]
      simp
    · rw [run_succ (step_eq_afterMove port), ih]
      simp

/-- A run of exactly the moves at the head of the port. -/
theorem run_moves {s : State} {ms rest : List HostMove} (port : s.port = ms ++ rest) :
    Host.Core.run core ms.length s = .next ((afterMoves ms s).setPort rest) := by
  rw [run_eq_afterMoves, port, List.take_left, List.drop_left]

/-! One move. -/

/-- The code of the response to a move, where it has one (R55, R173). -/
def HostMove.codes : HostMove → State → List Code
  | .deliver f, s => [frameCode f s]
  | _, _ => []

@[simp] theorem afterMove_reset (s : State) : afterMove .reset s = (s.setPort []).engineReset := rfl

@[simp] theorem afterMove_sensor (a : SensorAction) (s : State) : afterMove (.sensor a) s = s.setPort [] := rfl

theorem afterMove_deliver {f : Frame} {s t : State} (h : perform f s = .next t) :
    afterMove (.deliver f) s = t.setPort [] := by
  have hp := perform_setPort h []
  simp only [State.setPort] at hp
  simp [afterMove, step, State.setPort, hp]

theorem decode_encode (i : Instr) : decode (encode i) = .ok i := by
  cases i <;> rfl

theorem afterMove_encode {i : Instr} {s t : State} (h : exec i s = .next t) :
    afterMove (.deliver (encode i)) s = t.setPort [] :=
  afterMove_deliver ((perform_ok (decode_encode i) s).trans h)

theorem perform_params {f : Frame} {s t : State} (h : perform f s = .next t) : t.params = s.params := by
  rcases perform_effect h with ⟨-, rfl⟩ | ⟨-, i, u, v, -, effect, rfl⟩
  · rfl
  · obtain ⟨-, -, -, params⟩ := effect.unchanged
    exact params

/-- Each move adds the response of its frame, and keeps the parameters (log entry 3). -/
theorem afterMove_responds (m : HostMove) (s : State) :
    (∃ rs, (afterMove m s).responses = s.responses ++ rs ∧ rs.map Response.code = m.codes s) ∧
      (afterMove m s).params = s.params := by
  cases m with
  | deliver f =>
    obtain ⟨t, ht⟩ := perform_answers f s
    have params := perform_params ht
    obtain ⟨-, ⟨v, responses⟩, -⟩ := perform_responds ht
    rw [afterMove_deliver ht]
    exact ⟨⟨_, responses, rfl⟩, params⟩
  | reset => exact ⟨⟨[], by simp, rfl⟩, rfl⟩
  | sensor a => exact ⟨⟨[], by simp, rfl⟩, rfl⟩

/-- The codes of the responses to a list of moves, oldest first. -/
def codesOf : List HostMove → State → List Code
  | [], _ => []
  | m :: ms, s => m.codes s ++ codesOf ms (afterMove m s)

theorem afterMoves_responds (ms : List HostMove) (s : State) :
    (∃ rs, (afterMoves ms s).responses = s.responses ++ rs ∧ rs.map Response.code = codesOf ms s) ∧
      (afterMoves ms s).params = s.params := by
  induction ms generalizing s with
  | nil => exact ⟨⟨[], by simp, rfl⟩, rfl⟩
  | cons m ms ih =>
    obtain ⟨⟨rs, responses, codes⟩, params⟩ := afterMove_responds m s
    obtain ⟨⟨rs', responses', codes'⟩, params'⟩ := ih (afterMove m s)
    refine ⟨⟨rs ++ rs', ?_, ?_⟩, params'.trans params⟩
    · rw [afterMoves_cons, responses', responses, List.append_assoc]
    · rw [List.map_append, codes, codes', codesOf]

theorem length_codesOf (ms : List HostMove) (s : State) :
    (codesOf ms s).length = (ms.filter HostMove.isDelivery).length := by
  induction ms generalizing s with
  | nil => rfl
  | cons m ms ih => cases m <;> simp [codesOf, HostMove.codes, HostMove.isDelivery, List.filter_cons, ih]

/-- Settles O37: `run_eq_afterMoves`, and what the moves taken add (`afterMoves_responds`). -/
theorem movesTakenInOrderForever : Obligations.MovesTakenInOrderForever := by
  unfold Obligations.MovesTakenInOrderForever
  intro k s
  obtain ⟨⟨rs, responses, codes⟩, params⟩ := afterMoves_responds (s.port.take k) s
  refine ⟨_, rs, run_eq_afterMoves k s, rfl, responses, ?_, params⟩
  rw [← length_codesOf _ s, ← codes, List.length_map]

/-- Settles O41: `step` only takes such a move. -/
theorem sensorActionsChangeNothing : Obligations.SensorActionsChangeNothing := by
  unfold Obligations.SensorActionsChangeNothing
  intro s a ms port
  exact step_sensor port

/-! The writers of the coefficient set do not read it (R104, R150). -/

theorem step_coef_writer {m : HostMove} (writer : m.performs .invcoef ∨ m.loadsCoefs) (s : State) (c d : Option Coefs)
    (ms : List HostMove) :
    ∃ t, step { s with coef := c, port := m :: ms } = .next t ∧ step { s with coef := d, port := m :: ms } = .next t := by
  rcases writer with rfl | ⟨p0, p1, p2, p3, p4, p5, p6, p7, rfl⟩
  · exact ⟨_, rfl, rfl⟩
  · exact ⟨_, rfl, rfl⟩

/-- Settles O46: both machines are in one state after the writer's step (`step_coef_writer`), and so from there on. -/
theorem oldCoefficientsNeverReadAgain : Obligations.OldCoefficientsNeverReadAgain := by
  unfold Obligations.OldCoefficientsNeverReadAgain
  intro s c d m ms k writer
  obtain ⟨t, hc, hd⟩ := step_coef_writer writer s c d ms
  rw [run_succ hc, run_succ hd]

/-! Doing an operation again (R56). -/

/-- A read that follows a read of the same register, and finds what that one found, changes nothing more. -/
theorem answer_again {v w : Option RdValue} {s t u : State} (same : w.isSome = v.isSome) (ht : answer v s = .next t)
    (hu : answer w t = .next u) : { u with responses := t.responses } = t := by
  rcases v with _ | v <;> rcases w with _ | w
  · cases ht
    cases hu
    by_cases clear : s.err = .ok <;> simp [State.recordErr, State.respond, clear]
  · simp at same
  · simp at same
  · cases ht
    cases hu
    rfl

/-- A read gives no register a value and takes none away. -/
theorem isSome_register_of_answer {v : Option RdValue} {s t : State} (h : answer v s = .next t) (r : BitVec 4) :
    (register r t).isSome = (register r s).isSome := by
  unfold register
  cases v <;> cases h <;> split <;> simp

/-! The two computes with their inputs there (R124, R130). -/

theorem exec_compp {s : State} {c : Coefs} {pr tr : BitVec 10} (coef : s.coef = some c) (rawP : s.rawP = some pr)
    (rawT : s.rawT = some tr) : exec .compp s = .next ((compensatePressure c pr tr s).respond .ok none) := by
  rw [exec, execCompp_eq, coef, rawT, rawP]
  rfl

theorem exec_compt {s : State} {c : Coefs} {tr : BitVec 10} (coef : s.coef = some c) (rawT : s.rawT = some tr) :
    exec .compt s = .next ((compensateTemperature tr s).respond .ok none) := by
  rw [exec, execCompt_eq, coef, rawT]
  rfl

theorem readiness_compp_ok {s : State} :
    readiness .compp s = .ok ↔ ∃ c pr tr, s.coef = some c ∧ s.rawP = some pr ∧ s.rawT = some tr := by
  unfold readiness
  cases s.coef <;> cases s.rawT <;> cases s.rawP <;> simp

theorem readiness_compt_ok {s : State} : readiness .compt s = .ok ↔ ∃ c tr, s.coef = some c ∧ s.rawT = some tr := by
  unfold readiness
  cases s.coef <;> cases s.rawT <;> simp

/-- A compute takes the temperature sample and keeps the set, so the sample is what a repetition misses first. -/
theorem readiness_compute_again {i : Instr} {s t : State} (compute : i = .compp ∨ i = .compt)
    (ready : readiness i s = .ok) (h : exec i s = .next t) : readiness i t = .noRawT := by
  rcases compute with rfl | rfl
  · obtain ⟨c, pr, tr, coef, rawP, rawT⟩ := readiness_compp_ok.mp ready
    cases (exec_compp coef rawP rawT).symm.trans h
    simp [readiness, coef]
  · obtain ⟨c, tr, coef, rawT⟩ := readiness_compt_ok.mp ready
    cases (exec_compt coef rawT).symm.trans h
    simp [readiness, coef]

/-- Settles O47: a load and INVCOEF write what they wrote, and a read finds what it found (`answer_again`); a compute
has taken its sample (`readiness_compute_again`). -/
theorem onlyComputesConsume : Obligations.OnlyComputesConsume := by
  unfold Obligations.OnlyComputesConsume
  refine ⟨fun i s t u notCompp notCompt ht hu => ?_, fun i s t compute ready ht => ?_⟩
  · have reads : ∀ r : BitVec 4, answer (register r s) s = .next t → answer (register r t) t = .next u →
        { u with responses := t.responses } = t :=
      fun r ht hu => answer_again (isSome_register_of_answer ht r) ht hu
    cases i
    case compp => exact absurd rfl notCompp
    case compt => exact absurd rfl notCompt
    case ldrawp => cases ht; cases hu; rfl
    case ldrawt => cases ht; cases hu; rfl
    case ldcoef => cases ht; cases hu; rfl
    case invcoef => cases ht; cases hu; rfl
    case rdStatus => exact reads 0 ht hu
    case rdA0 => exact reads 1 ht hu
    case rdB1 => exact reads 2 ht hu
    case rdB2 => exact reads 3 ht hu
    case rdC12 => exact reads 4 ht hu
    case rdRawP => exact reads 5 ht hu
    case rdRawT => exact reads 6 ht hu
    case rdPcomp => exact reads 7 ht hu
    case rdPresOut => exact reads 8 ht hu
    case rdTempOut => exact reads 9 ht hu
  · have missing := readiness_compute_again compute ready ht
    rw [exec_of_not_ready (by simp [missing]), missing]

end Sys2Proof.Machine
end

section
/-! PROOFS. Which frames are operations, and which responses of the sensor become frames (spec/20_memory.md R51, R61, R62,
spec/30_encoding.md R72 to R75). -/

namespace Sys2Proof.Machine

/-- Settles O3: a frame is an encoding (`eq_encode_of_decode`), whose opcode is legal and whose length is its opcode's, or
it is rejected for one of the two (`decode_error_cases`). -/
theorem decodeRejectsByName : Obligations.DecodeRejectsByName := by
  unfold Obligations.DecodeRejectsByName
  intro f
  cases h : decode f with
  | ok i =>
    obtain rfl := eq_encode_of_decode h
    simp [Frame.wellFormed, legalOp_encode, length_payload_encode]
  | error r =>
    rcases decode_error_cases h with ⟨reserved, rfl⟩ | ⟨legal, length, rfl⟩
    · simp [Frame.wellFormed, reserved]
    · simp [Frame.wellFormed, legal, length]

/-- Settles O50: `frameOfTransaction` by the command; the trigger's byte is in no row of R70, so O3 names the rejection. -/
theorem sensorResponsesBecomeLoads : Obligations.SensorResponsesBecomeLoads := by
  unfold Obligations.SensorResponsesBecomeLoads
  refine ⟨fun _ _ _ _ _ _ _ _ => rfl, fun _ _ => rfl, fun _ _ => rfl, fun c => ?_, fun _ => rfl, fun c op hop => ?_,
    fun p => ?_⟩
  · cases c <;> rfl
  · cases c <;> cases hop <;> rfl
  · obtain ⟨-, reserved, -⟩ := decodeRejectsByName ⟨0x12#8, p⟩
    exact reserved.mpr rfl

end Sys2Proof.Machine
end

section
/-! PROOFS. The readings of R63 as lists of moves: where they lead the engine, and the host's duties toward it on the way
(spec/20_memory.md R63, R64). -/

namespace Sys2Proof.Machine

/-! The frames of a reading, and the state each leaves. -/

section
variable (s : State)

theorem afterMove_ldrawp (m l : Byte) :
    afterMove (.deliver (encode (.ldrawp m l))) s = ((s.setRawP (some (raw m l))).respond .ok none).setPort [] :=
  afterMove_encode rfl

theorem afterMove_ldrawt (m l : Byte) :
    afterMove (.deliver (encode (.ldrawt m l))) s = ((s.setRawT (some (raw m l))).respond .ok none).setPort [] :=
  afterMove_encode rfl

theorem afterMove_ldcoef (a b c d e f g h : Byte) :
    afterMove (.deliver (encode (.ldcoef a b c d e f g h))) s =
      ((s.setCoef (some (coefsOf s.params.negOffset a b c d e f g h))).respond .ok none).setPort [] :=
  afterMove_encode rfl

end

theorem afterMove_compp {s : State} {c : Coefs} {pr tr : BitVec 10} (coef : s.coef = some c) (rawP : s.rawP = some pr)
    (rawT : s.rawT = some tr) :
    afterMove (.deliver (encode .compp)) s = ((compensatePressure c pr tr s).respond .ok none).setPort [] :=
  afterMove_encode (exec_compp coef rawP rawT)

theorem afterMove_compt {s : State} {c : Coefs} {tr : BitVec 10} (coef : s.coef = some c) (rawT : s.rawT = some tr) :
    afterMove (.deliver (encode .compt)) s = ((compensateTemperature tr s).respond .ok none).setPort [] :=
  afterMove_encode (exec_compt coef rawT)

theorem afterMove_rdPresOut {s : State} {v : BitVec 64} (presOut : s.presOut = some v) :
    afterMove (.deliver (encode .rdPresOut)) s = (s.respond .ok (some (.w64 v))).setPort [] :=
  afterMove_encode (by simp [exec, execRdPresOut, presOut, answer])

theorem afterMove_rdTempOut {s : State} {v : BitVec 64} (tempOut : s.tempOut = some v) :
    afterMove (.deliver (encode .rdTempOut)) s = (s.respond .ok (some (.w64 v))).setPort [] :=
  afterMove_encode (by simp [exec, execRdTempOut, tempOut, answer])

/-! A response and its load frame (R61). -/

theorem loadMoves_coefficients (a b c d e f g h : Byte) :
    loadMoves .readCoefficients [a, b, c, d, e, f, g, h] =
      [.sensor (.transact .readCoefficients (some [a, b, c, d, e, f, g, h])),
        .deliver (encode (.ldcoef a b c d e f g h))] := rfl

theorem loadMoves_rawPressure (m l : Byte) :
    loadMoves .readRawPressure [m, l] =
      [.sensor (.transact .readRawPressure (some [m, l])), .deliver (encode (.ldrawp m l))] := rfl

theorem loadMoves_rawTemperature (m l : Byte) :
    loadMoves .readRawTemperature [m, l] =
      [.sensor (.transact .readRawTemperature (some [m, l])), .deliver (encode (.ldrawt m l))] := rfl

/-! Steps 1 to 3 of a reading. -/

/-- Waking the sensor is nothing to the engine. -/
theorem afterMoves_wakeMoves (pins : List SensorPin) (w : Nat) (s : State) :
    afterMoves (wakeMoves pins w) s = s.setPort [] := by
  unfold wakeMoves
  induction pins generalizing s with
  | nil => rfl
  | cons p pins ih => simp [ih]

/-- `COEF_VALID` as the host reads it (R33). -/
theorem status_coefValid (s : State) : (status s).getLsbD 0 = s.coef.isSome := by
  obtain ⟨coef, -⟩ := statusFieldsAreTheFlags s
  exact coef

/-- The engine after steps 1 to 3 of a reading: a set that was there kept, otherwise the sensor's loaded. -/
def withCoefs (s : State) (a b c d e f g h : Byte) : State :=
  match s.coef with
  | some _ => s
  | none => (s.setCoef (some (coefsOf s.params.negOffset a b c d e f g h))).respond .ok none

theorem afterMoves_readingSetup (s : State) (pins : List SensorPin) (w k : Nat) (a b c d e f g h : Byte) :
    afterMoves (readingSetup ((status s).getLsbD 0) pins w k [a, b, c, d, e, f, g, h]) s =
      (withCoefs s a b c d e f g h).setPort [] := by
  unfold readingSetup coefMoves triggerMoves withCoefs
  rw [status_coefValid, afterMoves_append, afterMoves_append, afterMoves_wakeMoves]
  cases s.coef <;> simp [loadMoves_coefficients, afterMove_ldcoef]

section
variable (s : State) (a b c d e f g h : Byte)

theorem withCoefs_coef :
    (withCoefs s a b c d e f g h).coef = some (s.coef.getD (coefsOf s.params.negOffset a b c d e f g h)) := by
  unfold withCoefs
  cases coef : s.coef <;> simp [coef]

/-- Steps 1 to 3 answer a load only where they load the coefficients. -/
theorem withCoefs_responses_append (n : Nat) :
    (withCoefs s a b c d e f g h).responses ++ List.replicate n ⟨.ok, none⟩ =
      s.responses ++ List.replicate (if s.coef = none then n + 1 else n) ⟨.ok, none⟩ := by
  unfold withCoefs
  cases s.coef <;> simp [List.replicate_succ]

@[simp] theorem withCoefs_err : (withCoefs s a b c d e f g h).err = s.err := by
  unfold withCoefs
  cases s.coef <;> rfl

@[simp] theorem withCoefs_rawP : (withCoefs s a b c d e f g h).rawP = s.rawP := by
  unfold withCoefs
  cases s.coef <;> rfl

@[simp] theorem withCoefs_params : (withCoefs s a b c d e f g h).params = s.params := by
  unfold withCoefs
  cases s.coef <;> rfl

end

/-! The counts read, loaded and compensated, with a coefficient set there. -/

theorem afterMoves_pressure {s : State} {set : Coefs} (coef : s.coef = some set) (pm pl tm tl : Byte) :
    ∃ t, afterMoves (loadMoves .readRawPressure [pm, pl] ++ (loadMoves .readRawTemperature [tm, tl] ++
          deliveries [.compp, .rdPresOut])) s = t ∧ t.err = s.err ∧ t.coef = some set ∧
      t.responses =
        s.responses ++ List.replicate 3 ⟨.ok, none⟩ ++
          [⟨.ok, some (.w64 (pressureOut s.params.outArith (mac set (raw pm pl) (raw tm tl)) (raw tm tl)))⟩] := by
  refine ⟨_, rfl, ?_⟩
  simp only [loadMoves_rawPressure, loadMoves_rawTemperature, deliveries, List.map_cons, List.map_nil, List.cons_append,
    List.nil_append, afterMoves_cons, afterMoves_nil, afterMove_sensor, afterMove_setPort, afterMove_ldrawp,
    afterMove_ldrawt]
  rw [afterMove_compp (c := set) (pr := raw pm pl) (tr := raw tm tl), afterMove_setPort,
    afterMove_rdPresOut (v := pressureOut s.params.outArith (mac set (raw pm pl) (raw tm tl)) (raw tm tl))]
  all_goals simp [coef]

theorem afterMoves_temperature {s : State} {set : Coefs} (coef : s.coef = some set) (tm tl : Byte) :
    ∃ t, afterMoves (loadMoves .readRawTemperature [tm, tl] ++ deliveries [.compt, .rdTempOut]) s = t ∧
      t.err = s.err ∧ t.rawP = s.rawP ∧ t.coef = some set ∧
      t.responses =
        s.responses ++ List.replicate 2 ⟨.ok, none⟩ ++
          [⟨.ok, some (.w64 (temperatureOut s.params.outArith (raw tm tl)))⟩] := by
  refine ⟨_, rfl, ?_⟩
  simp only [loadMoves_rawTemperature, deliveries, List.map_cons, List.map_nil, List.cons_append,
    List.nil_append, afterMoves_cons, afterMoves_nil, afterMove_sensor, afterMove_setPort, afterMove_ldrawt]
  rw [afterMove_compt (c := set) (tr := raw tm tl), afterMove_setPort,
    afterMove_rdTempOut (v := temperatureOut s.params.outArith (raw tm tl))]
  all_goals simp [coef]

/-- Settles O51: steps 1 to 3 leave a set in every state (`afterMoves_readingSetup`), and with one the counts are
compensated (`afterMoves_pressure`). -/
theorem pressureReadingCompletes : Obligations.PressureReadingCompletes := by
  unfold Obligations.PressureReadingCompletes
  intro s pins w k a b c d e f g h pm pl tm tl ms moves set port
  obtain ⟨t, ht, err, coef, responses⟩ := afterMoves_pressure (withCoefs_coef s a b c d e f g h) pm pl tm tl
  refine ⟨t.setPort ms, ?_, rfl, ?_, coef, ?_⟩
  · rw [run_moves port, ← ht]
    simp only [moves, pressureReading, List.append_assoc]
    rw [afterMoves_append, afterMoves_readingSetup, afterMoves_setPort]
  · simpa using err
  · rw [State.setPort_responses, responses, withCoefs_responses_append, withCoefs_params]

/-- Settles O54: as O51, with `afterMoves_temperature`, which loads no raw pressure. -/
theorem temperatureReadingCompletes : Obligations.TemperatureReadingCompletes := by
  unfold Obligations.TemperatureReadingCompletes
  intro s pins w k a b c d e f g h tm tl ms moves port
  obtain ⟨t, ht, err, rawP, coef, responses⟩ := afterMoves_temperature (withCoefs_coef s a b c d e f g h) tm tl
  refine ⟨t.setPort ms, ?_, rfl, ?_, ?_, coef, ?_⟩
  · rw [run_moves port, ← ht]
    simp only [moves, temperatureReading, List.append_assoc]
    rw [afterMoves_append, afterMoves_readingSetup, afterMoves_setPort]
  · simpa using err
  · simpa using rawP
  · rw [State.setPort_responses, responses, withCoefs_responses_append, withCoefs_params]

end Sys2Proof.Machine
end

section
/-! PROOFS. The host's duties (spec/20_memory.md R64, spec/70_reset_and_hazards.md R203, R210, R211): what a reading
meets, and what a host that meets them is answered. -/

namespace Sys2Proof.Machine

/-! The codes of a list of moves, with the duties toward the engine met. -/

@[simp] theorem frameCode_encode (i : Instr) (s : State) : frameCode (encode i) s = readiness i s :=
  frameCode_of_decode (decode_encode i) s

/-- R64: the inputs were loaded exactly if no response has one of the three codes. -/
theorem inputsLoaded_eq_codesOf (ms : List HostMove) (s : State) :
    inputsLoaded s ms = (codesOf ms s).all fun e => !isMissingInput e := by
  induction ms generalizing s with
  | nil => rfl
  | cons m ms ih => cases m <;> simp [inputsLoaded, codesOf, HostMove.codes, ih]

/-- Every code is a delivered frame's, in the state that it comes in. -/
theorem exists_frame_of_mem_codesOf {ms : List HostMove} {s : State} {e : Code} (he : e ∈ codesOf ms s) :
    ∃ f t, .deliver f ∈ ms ∧ e = frameCode f t := by
  induction ms generalizing s with
  | nil => simp [codesOf] at he
  | cons m ms ih =>
    rcases List.mem_append.mp he with now | later
    · cases m with
      | deliver f => exact ⟨f, s, by simp, List.mem_singleton.mp now⟩
      | reset => cases now
      | sensor a => cases now
    · obtain ⟨f, t, hf, rfl⟩ := ih later
      exact ⟨f, t, List.mem_cons_of_mem m hf, rfl⟩

/-- The duties toward the sensor go on after each move. -/
theorem exists_duties_of_cons {m : HostMove} {ms : List HostMove} {v : SensorView}
    (duties : sensorDutiesMet v (m :: ms) = true) : ∃ u, sensorDutiesMet u ms = true := by
  rcases m with f | _ | ⟨c, r⟩ | ⟨p, on⟩ | ms
  · simp only [sensorDutiesMet, Bool.and_eq_true] at duties
    exact ⟨v, duties.2⟩
  · exact ⟨v, duties⟩
  · simp only [sensorDutiesMet, Bool.and_eq_true] at duties
    exact ⟨_, duties.2⟩
  · exact ⟨_, duties⟩
  · exact ⟨_, duties⟩

/-- R61: the duties ask for well-formed load frames. -/
theorem wellFormed_of_sensorDutiesMet {ms : List HostMove} {v : SensorView} (duties : sensorDutiesMet v ms = true)
    {f : Frame} (hf : .deliver f ∈ ms) (load : isLoadFrame f = true) : f.wellFormed = true := by
  induction ms generalizing v with
  | nil => cases hf
  | cons m ms ih =>
    rcases List.mem_cons.mp hf with rfl | later
    · simp only [sensorDutiesMet, load, Bool.not_true, Bool.false_or, Bool.and_eq_true] at duties
      obtain ⟨⟨-, wellFormed⟩, -⟩ := duties
      exact wellFormed
    · obtain ⟨u, rest⟩ := exists_duties_of_cons duties
      exact ih rest later

/-- A well-formed load frame is a load, which has no precondition (R104, R106, R108). -/
theorem frameCode_load {f : Frame} (load : isLoadFrame f = true) (wellFormed : f.wellFormed = true) (s : State) :
    frameCode f s = .ok := by
  obtain ⟨accepted, -⟩ := decodeRejectsByName f
  obtain ⟨i, hi⟩ := accepted.mpr wellFormed
  obtain rfl := eq_encode_of_decode hi
  rw [frameCode_encode]
  cases i
  case ldrawp => rfl
  case ldrawt => rfl
  case ldcoef => rfl
  all_goals simp [isLoadFrame, encode] at load

/-- What a compute faults with is a missing input (R124, R130). -/
theorem readiness_compute {i : Instr} {s : State} (compute : i = .compp ∨ i = .compt)
    (present : isMissingInput (readiness i s) = false) : readiness i s = .ok := by
  revert present
  rcases compute with rfl | rfl
  · unfold readiness
    split_ifs <;> simp [isMissingInput]
  · unfold readiness
    split_ifs <;> simp [isMissingInput]

/-- The frames that R172 has answered OK: a load, COMPP, COMPT, INVCOEF and RD STATUS. -/
def isReadyFrame (f : Frame) : Prop :=
  isLoadFrame f = true ∨ f ∈ [Instr.compp, .compt, .invcoef, .rdStatus].map encode

/-- The only faults of these frames, where a load is well formed, are the missing inputs of a compute. -/
theorem frameCode_ready {f : Frame} {s : State} (ready : isReadyFrame f)
    (wellFormed : isLoadFrame f = true → f.wellFormed = true) (present : isMissingInput (frameCode f s) = false) :
    frameCode f s = .ok := by
  rcases ready with load | listed
  · exact frameCode_load load (wellFormed load) s
  · obtain ⟨i, hi, rfl⟩ := List.mem_map.mp listed
    rw [frameCode_encode] at present ⊢
    simp only [List.mem_cons, List.not_mem_nil, or_false] at hi
    rcases hi with rfl | rfl | rfl | rfl
    · exact readiness_compute (.inl rfl) present
    · exact readiness_compute (.inr rfl) present
    · rfl
    · rfl

/-- Settles O56: the codes of the responses are those of the moves (`afterMoves_responds`), none of them missing
(`inputsLoaded_eq_codesOf`), and all of them OK for the frames of R172 (`frameCode_ready`). -/
theorem dutifulHostGetsNoMissingInput : Obligations.DutifulHostGetsNoMissingInput := by
  unfold Obligations.DutifulHostGetsNoMissingInput
  intro s v ms port duties
  obtain ⟨⟨rs, responses, codes⟩, -⟩ := afterMoves_responds ms s
  obtain ⟨sensor, loaded⟩ : sensorDutiesMet v ms = true ∧ inputsLoaded s ms = true := by
    simpa [hostDutiesMet] using duties
  have mem_codes : ∀ r ∈ rs, r.code ∈ codesOf ms s := fun r hr => codes ▸ List.mem_map_of_mem hr
  have present : ∀ r ∈ rs, isMissingInput r.code = false := by
    rw [inputsLoaded_eq_codesOf] at loaded
    intro r hr
    simpa using List.all_eq_true.mp loaded _ (mem_codes r hr)
  refine ⟨_, rs, run_moves (rest := []) (by simpa using port), rfl, responses, fun r hr => ?_, fun ready => ?_⟩
  · simpa [isMissingInput, and_assoc] using present r hr
  · refine List.all_eq_true.mpr fun r hr => decide_eq_true ?_
    obtain ⟨f, t, hf, code⟩ := exists_frame_of_mem_codesOf (mem_codes r hr)
    rw [code]
    exact frameCode_ready (ready f hf) (wellFormed_of_sensorDutiesMet sensor hf) (code ▸ present r hr)

end Sys2Proof.Machine
end

section
/-! PROOFS. The readings and the host's duties (spec/20_memory.md R63, R64, spec/70_reset_and_hazards.md R210, R211). -/

namespace Sys2Proof.Machine

@[simp] theorem wellFormed_encode (i : Instr) : (encode i).wellFormed = true := by
  simp [Frame.wellFormed, legalOp_encode, length_payload_encode]

/-! Toward the engine: the inputs of the compute are loaded. -/

theorem inputsLoaded_append (ms ns : List HostMove) (s : State) :
    inputsLoaded s (ms ++ ns) = (inputsLoaded s ms && inputsLoaded (afterMoves ms s) ns) := by
  induction ms generalizing s with
  | nil => rfl
  | cons m ms ih => cases m <;> simp [inputsLoaded, ih, Bool.and_assoc]

@[simp] theorem isMissingInput_ok : isMissingInput .ok = false := rfl

/-- A read lacks no input of a compute (R152). -/
@[simp] theorem isMissingInput_noData_or_ok (p : Prop) [Decidable p] :
    isMissingInput (if p then .noData else .ok) = false := by
  split <;> rfl

theorem inputsLoaded_wakeMoves (pins : List SensorPin) (w : Nat) (s : State) :
    inputsLoaded s (wakeMoves pins w) = true := by
  unfold wakeMoves
  induction pins generalizing s with
  | nil => rfl
  | cons p pins ih => exact ih _

theorem inputsLoaded_readingSetup (s : State) (pins : List SensorPin) (w k : Nat) (a b c d e f g h : Byte) :
    inputsLoaded s (readingSetup ((status s).getLsbD 0) pins w k [a, b, c, d, e, f, g, h]) = true := by
  unfold readingSetup coefMoves triggerMoves
  rw [List.append_assoc, inputsLoaded_append, inputsLoaded_wakeMoves]
  split
  · rfl
  · rfl

/-- With a coefficient set there, a reading's counts are what its compute needs, in either order. -/
theorem inputsLoaded_counts {s : State} {set : Coefs} (coef : s.coef = some set) (pm pl tm tl : Byte) :
    inputsLoaded s (loadMoves .readRawPressure [pm, pl] ++ (loadMoves .readRawTemperature [tm, tl] ++
          deliveries [.compp, .rdPresOut])) = true ∧
      inputsLoaded s (loadMoves .readRawTemperature [tm, tl] ++ deliveries [.compt, .rdTempOut]) = true ∧
      inputsLoaded s ([.sensor (.transact .readRawPressure (some [pm, pl])),
          .sensor (.transact .readRawTemperature (some [tm, tl]))] ++
        deliveries [.ldrawt tm tl, .ldrawp pm pl, .compp, .rdPresOut]) = true := by
  refine ⟨?_, ?_, ?_⟩ <;>
    simp [loadMoves_rawPressure, loadMoves_rawTemperature, deliveries, inputsLoaded, readiness, afterMove_ldrawp,
      afterMove_ldrawt, coef]

/-! The frames of a reading that carry no response of the sensor. -/

@[simp] theorem isLoadFrame_compp : isLoadFrame (encode .compp) = false := rfl
@[simp] theorem isLoadFrame_compt : isLoadFrame (encode .compt) = false := rfl
@[simp] theorem isLoadFrame_rdPresOut : isLoadFrame (encode .rdPresOut) = false := rfl
@[simp] theorem isLoadFrame_rdTempOut : isLoadFrame (encode .rdTempOut) = false := rfl

/-! Toward the sensor: the settling windows. -/

/-- What the host knows of the sensor after a list of moves. -/
def SensorView.afterMoves : List HostMove → SensorView → SensorView
  | [], v => v
  | .sensor a :: ms, v => SensorView.afterMoves ms (v.after a)
  | .deliver _ :: ms, v => SensorView.afterMoves ms v
  | .reset :: ms, v => SensorView.afterMoves ms v

theorem SensorView.afterMoves_append (ms ns : List HostMove) (v : SensorView) :
    SensorView.afterMoves (ms ++ ns) v = SensorView.afterMoves ns (SensorView.afterMoves ms v) := by
  induction ms generalizing v with
  | nil => rfl
  | cons m ms ih => cases m <;> exact ih _

theorem sensorDutiesMet_append (ms ns : List HostMove) (v : SensorView) :
    sensorDutiesMet v (ms ++ ns) = (sensorDutiesMet v ms && sensorDutiesMet (SensorView.afterMoves ms v) ns) := by
  induction ms generalizing v with
  | nil => rfl
  | cons m ms ih =>
    rcases m with f | _ | ⟨c, r⟩ | ⟨p, on⟩ | t <;> simp [sensorDutiesMet, SensorView.afterMoves, ih, Bool.and_assoc]

/-- R210, R211: when a command may be sent. -/
theorem commandSettled_iff (v : SensorView) (c : SensorCommand) :
    commandSettled v c = true ↔
      v.shutdown = false ∧ v.reset = false ∧ 5 ≤ v.awakeFor ∧
        (c = .readRawPressure ∨ c = .readRawTemperature → ∃ t ∈ v.convertedFor, 3 ≤ t) := by
  have wake : Config.tWakeMs = 5 := rfl
  have conv : Config.tConvMs = 3 := rfl
  cases c <;> cases hc : v.convertedFor <;> simp [commandSettled, hc, wake, conv, and_assoc]

/-- For how long the sensor is awake after its asserted pins are released and the host waits. -/
def SensorView.awakeAfter (v : SensorView) (w : Nat) : Nat :=
  if v.shutdown ∨ v.reset then w else v.awakeFor + w

/-- Both pins are released, and the sensor has been awake for `ms` milliseconds. -/
def SensorView.awake (v : SensorView) (ms : Nat) : Prop :=
  v.shutdown = false ∧ v.reset = false ∧ v.awakeFor = ms

/-- Step 1 of a reading leaves an awake sensor. -/
theorem awake_of_released (pins : List SensorPin) (w : Nat) {v : SensorView}
    (shutdown : v.shutdown = true → .shutdown ∈ pins) (reset : v.reset = true → .reset ∈ pins) :
    sensorDutiesMet v (wakeMoves pins w) = true ∧
      (SensorView.afterMoves (wakeMoves pins w) v).awake (v.awakeAfter w) := by
  unfold wakeMoves
  induction pins generalizing v with
  | nil =>
    have shutdown' : v.shutdown = false := by simpa using shutdown
    have reset' : v.reset = false := by simpa using reset
    exact ⟨rfl, shutdown', reset', by
      simp [SensorView.awakeAfter, shutdown', reset', SensorView.afterMoves, SensorView.after]⟩
  | cons p pins ih =>
    obtain ⟨duties, awake⟩ := ih (v := v.drivePin p false)
      (by cases p <;> simp_all [SensorView.drivePin]) (by cases p <;> simp_all [SensorView.drivePin])
    have same : (v.drivePin p false).awakeAfter w = v.awakeAfter w := by
      cases p <;> cases hs : v.shutdown <;> cases hr : v.reset <;>
        simp [SensorView.drivePin, SensorView.awakeAfter, hs, hr]
    exact ⟨duties, same ▸ awake⟩

/-- Steps 1 to 3 are right exactly if the sensor is awake long enough for the trigger. -/
theorem sensorDutiesMet_readingSetup (valid : Bool) (pins : List SensorPin) (w k : Nat) (a b c d e f g h : Byte)
    {v : SensorView} (shutdown : v.shutdown = true → .shutdown ∈ pins) (reset : v.reset = true → .reset ∈ pins) :
    (sensorDutiesMet v (readingSetup valid pins w k [a, b, c, d, e, f, g, h]) = true ↔ 5 ≤ v.awakeAfter w) ∧
      (SensorView.afterMoves (readingSetup valid pins w k [a, b, c, d, e, f, g, h]) v).awake (v.awakeAfter w + k) ∧
      (SensorView.afterMoves (readingSetup valid pins w k [a, b, c, d, e, f, g, h]) v).convertedFor = some k := by
  obtain ⟨duties, awake⟩ := awake_of_released pins w shutdown reset
  unfold readingSetup
  rw [List.append_assoc, sensorDutiesMet_append, duties, SensorView.afterMoves_append]
  generalize SensorView.afterMoves (wakeMoves pins w) v = u at awake ⊢
  obtain ⟨ushutdown, ureset, uawake⟩ := awake
  obtain ⟨response, -⟩ := sensorResponsesBecomeLoads
  cases valid <;>
    simp [triggerMoves, coefMoves, loadMoves_coefficients, sensorDutiesMet, commandSettled_iff, SensorView.after,
      SensorView.afterMoves, SensorView.awake, ushutdown, ureset, uawake, response]
  omega

/-- Both counts are read, or the temperature alone, in a settled sensor exactly if its conversion is done. -/
theorem sensorDutiesMet_counts {u : SensorView} {n k : Nat} (awake : u.awake n) (wake : 5 ≤ n)
    (converted : u.convertedFor = some k) (pm pl tm tl : Byte) :
    (sensorDutiesMet u (loadMoves .readRawPressure [pm, pl] ++ (loadMoves .readRawTemperature [tm, tl] ++
          deliveries [.compp, .rdPresOut])) = true ↔ 3 ≤ k) ∧
      (sensorDutiesMet u (loadMoves .readRawTemperature [tm, tl] ++ deliveries [.compt, .rdTempOut]) = true ↔ 3 ≤ k) ∧
      (sensorDutiesMet u ([.sensor (.transact .readRawPressure (some [pm, pl])),
          .sensor (.transact .readRawTemperature (some [tm, tl]))] ++
        deliveries [.ldrawt tm tl, .ldrawp pm pl, .compp, .rdPresOut]) = true ↔ 3 ≤ k) := by
  obtain ⟨shutdown, reset, rfl⟩ := awake
  obtain ⟨-, pressure, temperature, -⟩ := sensorResponsesBecomeLoads
  refine ⟨?_, ?_, ?_⟩ <;>
    simp [loadMoves_rawPressure, loadMoves_rawTemperature, deliveries, sensorDutiesMet, commandSettled_iff,
      SensorView.after, shutdown, reset, wake, converted, pressure, temperature]

/-- A reading meets R64's musts exactly if both windows are kept, where its moves after step 3 load what they compute
with and read the counts of a done conversion. -/
theorem hostDutiesMet_reading {s : State} {v : SensorView} {pins : List SensorPin} {w k : Nat} {a b c d e f g h : Byte}
    (shutdown : v.shutdown = true → .shutdown ∈ pins) (reset : v.reset = true → .reset ∈ pins) {tail : List HostMove}
    (loaded : inputsLoaded (withCoefs s a b c d e f g h) tail = true)
    (duties : ∀ {u : SensorView} {n : Nat}, u.awake n → 5 ≤ n → u.convertedFor = some k →
      (sensorDutiesMet u tail = true ↔ 3 ≤ k)) :
    hostDutiesMet v s (readingSetup ((status s).getLsbD 0) pins w k [a, b, c, d, e, f, g, h] ++ tail) = true ↔
      5 ≤ v.awakeAfter w ∧ 3 ≤ k := by
  obtain ⟨setup, awake, converted⟩ :=
    sensorDutiesMet_readingSetup ((status s).getLsbD 0) pins w k a b c d e f g h shutdown reset
  rw [hostDutiesMet, inputsLoaded_append, inputsLoaded_readingSetup, afterMoves_readingSetup, inputsLoaded_setPort, loaded,
    Bool.and_true, Bool.and_true, sensorDutiesMet_append, Bool.and_eq_true, setup]
  exact and_congr_right fun wake => duties awake (by omega) converted

/-- Settles O55: steps 1 to 3 leave a set and an awake sensor (`hostDutiesMet_reading`), and then the counts are read and
loaded as the musts ask (`inputsLoaded_counts`, `sensorDutiesMet_counts`). -/
theorem readingsMeetHostDuties : Obligations.ReadingsMeetHostDuties := by
  unfold Obligations.ReadingsMeetHostDuties
  refine ⟨?_, ?_⟩
  · intro s v pins w k a b c d e f g h pm pl tm tl shutdown reset valid cs settled
    obtain ⟨pressure, temperature, reordered⟩ :=
      inputsLoaded_counts (withCoefs_coef s a b c d e f g h) pm pl tm tl
    simp only [pressureReading, temperatureReading, List.append_assoc]
    refine ⟨hostDutiesMet_reading shutdown reset pressure fun awake wake converted => ?_,
      hostDutiesMet_reading shutdown reset temperature fun awake wake converted => ?_,
      hostDutiesMet_reading shutdown reset reordered fun awake wake converted => ?_⟩
    · obtain ⟨met, -, -⟩ := sensorDutiesMet_counts awake wake converted pm pl tm tl
      exact met
    · obtain ⟨-, met, -⟩ := sensorDutiesMet_counts awake wake converted pm pl tm tl
      exact met
    · obtain ⟨-, -, met⟩ := sensorDutiesMet_counts awake wake converted pm pl tm tl
      exact met
  · intro s v f ms load broken
    have isLoad : isLoadFrame f = true := by simpa [isLoadFrame, or_assoc] using load
    have notMet : f ∉ v.received ∨ f.wellFormed = false :=
      broken.imp_right fun length => by simp [Frame.wellFormed, length]
    rcases notMet with unknown | illFormed
    · simp [hostDutiesMet, sensorDutiesMet, isLoad, unknown]
    · simp [hostDutiesMet, sensorDutiesMet, isLoad, illFormed]

end Sys2Proof.Machine
end

section
/-! PROOFS. The decoder against the encoder, and what a step makes of a delivered frame (spec/30_encoding.md R70 to R75). -/

namespace Sys2Proof.Machine

/-- Settles O2: the decoder answers only what the frame encodes (`eq_encode_of_decode`), and every encoding is read back
(`decode_encode`). -/
theorem decodeEncodeAgree : Obligations.DecodeEncodeAgree := by
  unfold Obligations.DecodeEncodeAgree
  intro f i
  constructor
  · exact eq_encode_of_decode
  · rintro rfl
    exact decode_encode i

/-! The opcode map by list (R70, R72). -/

/-- The opcodes whose payload is empty. -/
def emptyPayloadOpcodes : List Byte :=
  [0x10#8, 0x11#8, 0x20#8, 0x30#8, 0x31#8, 0x32#8, 0x33#8, 0x34#8, 0x35#8, 0x36#8, 0x37#8, 0x38#8, 0x39#8]

/-- The sixteen opcodes of the map. -/
def listedOpcodes : List Byte :=
  [0x00#8, 0x02#8, 0x04#8] ++ emptyPayloadOpcodes

theorem legalOp_iff_mem_listedOpcodes : ∀ op : Byte, Frame.legalOp op = true ↔ op ∈ listedOpcodes := by
  decide

theorem payloadBytes_of_mem_emptyPayloadOpcodes : ∀ op ∈ emptyPayloadOpcodes, Frame.payloadBytes op = 0 := by
  decide

/-- R72's table of lengths: whatever is said of each opcode's listed length is said of `payloadBytes`. -/
theorem payloadBytes_of_listed {op : Byte} (P : Nat → Prop)
    (h : op = 0x04#8 ∧ P 8 ∨ op ∈ [0x00#8, 0x02#8] ∧ P 2 ∨ op ∈ emptyPayloadOpcodes ∧ P 0) :
    Frame.legalOp op = true ∧ P (Frame.payloadBytes op) := by
  rcases h with ⟨rfl, h⟩ | ⟨hop, h⟩ | ⟨hop, h⟩
  · exact ⟨rfl, h⟩
  · rcases List.mem_pair.mp hop with rfl | rfl <;> exact ⟨rfl, h⟩
  · rw [payloadBytes_of_mem_emptyPayloadOpcodes op hop]
    exact ⟨(legalOp_iff_mem_listedOpcodes op).mpr (List.mem_append_right _ hop), h⟩

/-! A step on a delivered frame (R74). -/

theorem step_decoded {s : State} {f : Frame} {ms : List HostMove} {i : Instr} (port : s.port = .deliver f :: ms)
    (hd : decode f = .ok i) : step s = exec i (s.setPort ms) :=
  (step_deliver port).trans (perform_ok hd _)

theorem step_rejected {s : State} {f : Frame} {ms : List HostMove} {r : Reject} (port : s.port = .deliver f :: ms)
    (hd : decode f = .error r) : step s = .next (faulted (rejectCode r) (s.setPort ms)) :=
  (step_deliver port).trans (perform_error hd _)

/-- Settles O4: the opcode is none of the legal ones, so O3 names the rejection and the step raises it. -/
theorem reservedOpcodesFault : Obligations.ReservedOpcodesFault := by
  unfold Obligations.ReservedOpcodesFault
  intro listed
  refine ⟨fun s f ms port notListed => ?_, by decide +kernel⟩
  obtain ⟨-, reserved, -⟩ := decodeRejectsByName f
  have notLegal : Frame.legalOp f.op = false :=
    Bool.eq_false_iff.mpr fun legal => notListed ((legalOp_iff_mem_listedOpcodes f.op).mp legal)
  rw [step_rejected port (reserved.mpr notLegal)]
  rfl

/-- Settles O5: the listed lengths are `payloadBytes` (`payloadBytes_of_listed`), and O3 says what a frame of this or of
another length is. -/
theorem wrongPayloadLengthFaults : Obligations.WrongPayloadLengthFaults := by
  unfold Obligations.WrongPayloadLengthFaults
  intro rest
  refine ⟨fun s f ms port wrong => ?_, fun f right => ?_⟩
  · obtain ⟨-, -, wrongLength⟩ := decodeRejectsByName f
    rw [step_rejected port (wrongLength.mpr (payloadBytes_of_listed (f.payload.length ≠ ·) wrong))]
    rfl
  · obtain ⟨accepted, -, -⟩ := decodeRejectsByName f
    obtain ⟨legal, length⟩ := payloadBytes_of_listed (f.payload.length = ·) right
    exact accepted.mpr (by simp [Frame.wellFormed, legal, length])

/-- Settles O1: each frame is computed. -/
theorem specFramesDecode : Obligations.SpecFramesDecode := by
  unfold Obligations.SpecFramesDecode
  exact ⟨rfl, rfl, rfl, rfl, rfl, rfl, rfl, rfl, rfl, rfl⟩

theorem decode_of_decodeTableWord {nbits w : Nat} {i : Instr} (h : decodeTableWord nbits w = some i) :
    decode (frameOfWord nbits w) = .ok i := by
  unfold decodeTableWord at h
  cases hd : decode (frameOfWord nbits w) with
  | ok j => simpa [hd, Except.toOption] using h
  | error r => simp [hd, Except.toOption] at h

/-- Settles O6: `step_decoded` and `step_rejected`; `withFetchWord` puts the word's frame at the head of the port. -/
theorem stepRunsDecodedFrame : Obligations.StepRunsDecodedFrame := by
  unfold Obligations.StepRunsDecodedFrame
  refine ⟨fun s f ms i port hd => step_decoded port hd, fun s f ms r port hd => step_rejected port hd,
    fun s nbits w i hw => ?_⟩
  rw [step_decoded (s := s.withFetchWord nbits w) rfl (decode_of_decodeTableWord hw)]
  rfl

end Sys2Proof.Machine
end

section
/-! PROOFS. The pseudo-operations (spec/30_encoding.md R80): to the engine a reading of R63 past its setup is no more than
their frames. -/

namespace Sys2Proof.Machine

theorem afterMoves_expand_pressure (pm pl tm tl : Byte) (s : State) :
    afterMoves (deliveries (Pseudo.pressure pm pl tm tl).expand) s =
      afterMoves (loadMoves .readRawPressure [pm, pl] ++ (loadMoves .readRawTemperature [tm, tl] ++
        deliveries [.compp, .rdPresOut])) s := by
  simp [loadMoves_rawPressure, loadMoves_rawTemperature, deliveries, Pseudo.expand]

theorem afterMoves_expand_temperature (tm tl : Byte) (s : State) :
    afterMoves (deliveries (Pseudo.temperature tm tl).expand) s =
      afterMoves (loadMoves .readRawTemperature [tm, tl] ++ deliveries [.compt, .rdTempOut]) s := by
  simp [loadMoves_rawTemperature, deliveries, Pseudo.expand]

theorem afterMoves_expand_reload (a b c d e f g h : Byte) (s : State) :
    afterMoves (deliveries (Pseudo.reload a b c d e f g h).expand) s =
      { s with
        coef := some (coefsOf s.params.negOffset a b c d e f g h)
        port := []
        responses := s.responses ++ [⟨.ok, none⟩] ++ [⟨.ok, none⟩] } := by
  have invalidate : afterMove (.deliver (encode .invcoef)) s = ((s.setCoef none).respond .ok none).setPort [] :=
    afterMove_encode rfl
  simp only [deliveries, Pseudo.expand, List.map_cons, List.map_nil, afterMoves_cons, afterMoves_nil, invalidate,
    afterMove_ldcoef]
  rfl

/-- Settles O49: the frames of PRESSURE and TEMPERATURE are those of a reading with the set there
(`afterMoves_pressure`, `afterMoves_temperature`); those of RELOAD write the set alone. -/
theorem pseudoOperationsExpand : Obligations.PseudoOperationsExpand := by
  unfold Obligations.PseudoOperationsExpand
  refine ⟨fun s c pm pl tm tl ms coef port => ?_, fun s c tm tl ms coef port => ?_,
    fun s a b c d e f g h ms port => ?_⟩
  · obtain ⟨t, ht, -, -, responses⟩ := afterMoves_pressure coef pm pl tm tl
    rw [← afterMoves_expand_pressure] at ht
    refine ⟨t.setPort ms, _, ht ▸ run_moves port, rfl, responses.trans (List.append_assoc ..), ?_, ?_⟩ <;>
      simp [allSucceed]
  · obtain ⟨t, ht, -, -, -, responses⟩ := afterMoves_temperature coef tm tl
    rw [← afterMoves_expand_temperature] at ht
    refine ⟨t.setPort ms, _, ht ▸ run_moves port, rfl, responses.trans (List.append_assoc ..), ?_, ?_⟩ <;>
      simp [allSucceed]
  · refine ⟨_, [⟨.ok, none⟩, ⟨.ok, none⟩], run_moves port, rfl, ?_, rfl, ?_⟩ <;>
      simp [afterMoves_expand_reload, State.setPort]

end Sys2Proof.Machine
end

section
/-! PROOFS. How the assembler cuts a line into its mnemonic and its operands (spec/30_encoding.md R78; what is blank is log
entry 12). -/

namespace Sys2Proof.Machine

/-! Blanks around a text. -/

/-- A text of blanks only. -/
def Blank (cs : List Char) : Prop :=
  ∀ c ∈ cs, isBlank c = true

theorem Blank.not_mem {bs : List Char} {c : Char} (blank : Blank bs) (hc : isBlank c = false) : c ∉ bs := fun hmem =>
  Bool.false_ne_true (hc.symm.trans (blank c hmem))

theorem trim_eq (cs : List Char) : trim cs = (cs.dropWhile isBlank).rdropWhile isBlank := rfl

theorem trim_eq_nil_iff {cs : List Char} : trim cs = [] ↔ Blank cs := by
  rw [trim_eq, List.rdropWhile_eq_nil_iff]
  constructor
  · intro h
    rw [Blank, ← List.dropWhile_eq_nil_iff]
    by_contra nonempty
    exact Bool.false_ne_true ((List.head_dropWhile_not isBlank nonempty).symm.trans (h _ (List.head_mem nonempty)))
  · intro blank c hc
    exact blank c ((List.dropWhile_sublist isBlank).subset hc)

theorem rdropWhile_append_blanks {bs : List Char} (blank : Blank bs) (cs : List Char) :
    (cs ++ bs).rdropWhile isBlank = cs.rdropWhile isBlank := by
  rw [List.rdropWhile, List.reverse_append, List.dropWhile_append_of_pos (by simpa [Blank] using blank)]
  rfl

/-- The blanks after a text are those after its last part that is not blank. -/
theorem rdropWhile_append_of_last {xs : List Char} (nonempty : xs ≠ []) (last : isBlank (xs.getLast nonempty) = false)
    (cs : List Char) : (xs ++ cs).rdropWhile isBlank = xs ++ cs.rdropWhile isBlank := by
  have hxs : xs.rdropWhile isBlank = xs := by simp [List.rdropWhile_eq_self_iff, nonempty, last]
  rw [List.rdropWhile, List.reverse_append, List.dropWhile_append]
  split
  · next h =>
    rw [← List.rdropWhile, hxs, List.rdropWhile]
    simp_all
  · simp [List.rdropWhile]

theorem trim_blanks_append {bs : List Char} (blank : Blank bs) (cs : List Char) : trim (bs ++ cs) = trim cs := by
  rw [trim_eq, List.dropWhile_append_of_pos blank, trim_eq]

theorem trim_append_blanks {bs : List Char} (blank : Blank bs) (cs : List Char) : trim (cs ++ bs) = trim cs := by
  by_cases hcs : Blank cs
  · rw [trim_blanks_append hcs, trim_eq_nil_iff.mpr hcs, trim_eq_nil_iff.mpr blank]
  · have nonempty : ¬ (cs.dropWhile isBlank).isEmpty = true := by simpa [List.dropWhile_eq_nil_iff, Blank] using hcs
    rw [trim_eq, List.dropWhile_append, if_neg nonempty, rdropWhile_append_blanks blank, trim_eq]

/-! The pieces between commas. -/

theorem splitAtChar_eq_splitOn (c : Char) (cs : List Char) : splitAtChar c cs = cs.splitOn c := by
  induction cs with
  | nil => simp [splitAtChar]
  | cons x xs ih =>
    rw [splitAtChar, List.splitOn_cons_eq_if_modifyHead, ih]
    by_cases hx : x = c
    · simp [hx]
    · rw [if_neg hx, if_neg (by simpa using hx)]
      obtain ⟨p, ps, hp⟩ := List.exists_cons_of_ne_nil (List.splitOn_ne_nil c xs)
      rw [hp, List.modifyHead_cons]

theorem splitOn_append_of_not_mem {c : Char} {xs : List Char} (h : c ∉ xs) (ys : List Char) :
    (xs ++ ys).splitOn c = (ys.splitOn c).modifyHead (xs ++ ·) := by
  induction xs with
  | nil => exact (congrFun List.modifyHead_id _).symm
  | cons x xs ih =>
    obtain ⟨hx, hxs⟩ := not_or.mp (mt List.mem_cons.mpr h)
    rw [List.cons_append, List.splitOn_cons_eq_if_modifyHead, if_neg (by simpa using Ne.symm hx), ih hxs,
      List.modifyHead_modifyHead]
    rfl

/-- What follows the last separator is the last piece. -/
theorem exists_splitOn_append (c : Char) (xs : List Char) :
    ∃ pieces last, ∀ ys, c ∉ ys → (xs ++ ys).splitOn c = pieces ++ [last ++ ys] := by
  induction xs with
  | nil => exact ⟨[], [], fun ys h => by simp [List.splitOn_eq_singleton h]⟩
  | cons x xs ih =>
    obtain ⟨pieces, last, h⟩ := ih
    by_cases hx : x = c
    · exact ⟨[] :: pieces, last, fun ys hys => by simp [List.splitOn_cons_eq_if_modifyHead, hx, h ys hys]⟩
    · cases pieces with
      | nil => exact ⟨[], x :: last, fun ys hys => by simp [List.splitOn_cons_eq_if_modifyHead, hx, h ys hys]⟩
      | cons p ps =>
        exact ⟨(x :: p) :: ps, last, fun ys hys => by simp [List.splitOn_cons_eq_if_modifyHead, hx, h ys hys]⟩

theorem not_mem_intercalate {c : Char} {sep : List Char} {texts : List (List Char)} (hsep : c ∉ sep)
    (htexts : ∀ t ∈ texts, c ∉ t) : c ∉ sep.intercalate texts := by
  match texts with
  | [] => simp
  | [t] => simpa using htexts t
  | t :: t' :: ts =>
    obtain ⟨ht, hts⟩ := List.forall_mem_cons.mp htexts
    rw [List.intercalate_cons_cons]
    simp [ht, hsep, not_mem_intercalate hsep hts]

theorem isBlank_comma : isBlank ',' = false := rfl

theorem operandTexts_blanks_append {bs : List Char} (blank : Blank bs) (cs : List Char) :
    operandTexts (bs ++ cs) = operandTexts cs := by
  have pieces : (splitAtChar ',' (bs ++ cs)).map trim = (splitAtChar ',' cs).map trim := by
    rw [splitAtChar_eq_splitOn, splitAtChar_eq_splitOn, splitOn_append_of_not_mem (blank.not_mem isBlank_comma)]
    cases List.splitOn ',' cs <;> simp [trim_blanks_append blank]
  rw [operandTexts, trim_blanks_append blank, pieces, operandTexts]

theorem operandTexts_append_blanks {bs : List Char} (blank : Blank bs) (cs : List Char) :
    operandTexts (cs ++ bs) = operandTexts cs := by
  have pieces : (splitAtChar ',' (cs ++ bs)).map trim = (splitAtChar ',' cs).map trim := by
    obtain ⟨pieces, last, h⟩ := exists_splitOn_append ',' cs
    have alone := h [] (by simp)
    rw [List.append_nil] at alone
    rw [splitAtChar_eq_splitOn, splitAtChar_eq_splitOn, h bs (blank.not_mem isBlank_comma), alone]
    simp [trim_append_blanks blank]
  rw [operandTexts, trim_append_blanks blank, pieces, operandTexts]

theorem operandTexts_of_blank {bs : List Char} (blank : Blank bs) : operandTexts bs = [] :=
  if_pos (trim_eq_nil_iff.mpr blank)

/-- Operands joined by commas are read one by one, unless they are one blank text, which is no operand. -/
theorem operandTexts_intercalate {ops : List (List Char)} (nonempty : ops ≠ []) (notBlank : ops.map trim ≠ [[]])
    (noComma : ∀ o ∈ ops, ',' ∉ o) : operandTexts ([','].intercalate ops) = ops.map trim := by
  have pieces : ([','].intercalate ops).splitOn ',' = ops := List.splitOn_intercalate ',' noComma nonempty
  rw [operandTexts, if_neg, splitAtChar_eq_splitOn, pieces]
  intro hblank
  have single := List.splitOn_eq_singleton ((trim_eq_nil_iff.mp hblank).not_mem isBlank_comma)
  rw [pieces] at single
  rw [single] at notBlank
  exact notBlank (by simp [hblank])

/-! A line. -/

theorem takeWhile_ne_append_comment {cs comment : List Char} (noComment : ';' ∉ cs)
    (hcomment : comment = [] ∨ ∃ text, comment = ';' :: text) :
    ((cs ++ comment).takeWhile fun c => c ≠ ';') = cs := by
  rw [List.takeWhile_append_of_pos (by simpa using fun c hc => ne_of_mem_of_not_mem hc noComment)]
  rcases hcomment with rfl | ⟨text, rfl⟩ <;> simp

section
variable {before word rest comment : List Char}

/-- A line's body, from the first character of its word to the last that is not blank. -/
theorem lineBody_of_word (hbefore : Blank before) (nonempty : word ≠ []) (hword : ∀ c ∈ word, isBlank c = false ∧ c ≠ ';')
    (noComment : ';' ∉ rest) (hcomment : comment = [] ∨ ∃ text, comment = ';' :: text) :
    lineBody (before ++ (word ++ rest) ++ comment) = word ++ rest.rdropWhile isBlank := by
  have noCommentBefore : ';' ∉ before ++ (word ++ rest) := by
    simp only [List.mem_append, not_or]
    exact ⟨hbefore.not_mem rfl, fun h => (hword _ h).2 rfl, noComment⟩
  have head : (word ++ rest).dropWhile isBlank = word ++ rest := by
    obtain ⟨c, cs, rfl⟩ := List.exists_cons_of_ne_nil nonempty
    exact List.dropWhile_cons_of_neg (by simp [hword c])
  rw [lineBody, takeWhile_ne_append_comment noCommentBefore hcomment, trim_blanks_append hbefore, trim_eq, head,
    rdropWhile_append_of_last nonempty (hword _ (List.getLast_mem nonempty)).1]

theorem rdropWhile_starts_blank (hrest : ∀ c ∈ rest.head?, isBlank c = true) :
    ∀ c ∈ (rest.rdropWhile isBlank).head?, isBlank c = true := by
  obtain ⟨bs, hbs⟩ := List.rdropWhile_prefix isBlank rest
  intro c hc
  refine hrest c ?_
  rw [← hbs, List.head?_append, Option.mem_def.mp hc]
  rfl

/-- A line is its word, in capitals the mnemonic, and the operands in what follows the word. -/
theorem lineWord_lineOperands (hbefore : Blank before) (nonempty : word ≠ [])
    (hword : ∀ c ∈ word, isBlank c = false ∧ c ≠ ';') (hrest : ∀ c ∈ rest.head?, isBlank c = true)
    (noComment : ';' ∉ rest) (hcomment : comment = [] ∨ ∃ text, comment = ';' :: text) :
    lineWord (before ++ (word ++ rest) ++ comment) = word.map Char.toUpper ∧
      lineOperands (before ++ (word ++ rest) ++ comment) = operandTexts rest := by
  have inWord : ∀ c ∈ word, (!isBlank c) = true := fun c hc => by simp [hword c hc]
  have starts := rdropWhile_starts_blank hrest
  rw [lineWord, lineOperands, lineBody_of_word hbefore nonempty hword noComment hcomment,
    List.takeWhile_append_of_pos inWord, List.dropWhile_append_of_pos inWord]
  have tail : (rest.rdropWhile isBlank).takeWhile (fun c => !isBlank c) = [] ∧
      (rest.rdropWhile isBlank).dropWhile (fun c => !isBlank c) = rest.rdropWhile isBlank := by
    cases h : rest.rdropWhile isBlank with
    | nil => simp
    | cons c cs => simp [starts c (by simp [h])]
  refine ⟨by rw [tail.1, List.append_nil], ?_⟩
  have blankAfter : Blank (rest.rtakeWhile isBlank) := fun c hc => List.mem_rtakeWhile_imp hc
  calc operandTexts ((rest.rdropWhile isBlank).dropWhile fun c => !isBlank c)
      = operandTexts (rest.rdropWhile isBlank) := by rw [tail.2]
    _ = operandTexts (rest.rdropWhile isBlank ++ rest.rtakeWhile isBlank) :=
        (operandTexts_append_blanks blankAfter _).symm
    _ = operandTexts rest := by rw [List.rdropWhile_append_rtakeWhile]

end

/-- Settles O57: the line's parts are those of `lineWord_lineOperands`, and the blanks before the operands are none of
theirs (`operandTexts_blanks_append`, `operandTexts_intercalate`). -/
theorem assemblerSplitsLines : Obligations.AssemblerSplitsLines := by
  unfold Obligations.AssemblerSplitsLines
  intro before gap comment word blank hcomment
  have hbefore : Blank before := fun c hc => blank c (List.mem_append_left _ hc)
  have hgap : Blank gap := fun c hc => blank c (List.mem_append_right _ hc)
  have gapStarts : ∀ c ∈ gap.head?, isBlank c = true := fun c hc => hgap c (List.mem_of_mem_head? hc)
  refine ⟨?_, fun nonempty hword => ⟨?_, fun ops gapNonempty opsNonempty notBlank hops => ?_⟩⟩
  · rw [lineBody, takeWhile_ne_append_comment (hbefore.not_mem rfl) hcomment]
    exact trim_eq_nil_iff.mpr hbefore
  · rw [List.append_assoc before]
    obtain ⟨mnemonic, operands⟩ := lineWord_lineOperands hbefore nonempty hword gapStarts (hgap.not_mem rfl) hcomment
    exact ⟨mnemonic, operands.trans (operandTexts_of_blank hgap)⟩
  · have noComment : ';' ∉ gap ++ [','].intercalate ops := by
      rw [List.mem_append, not_or]
      exact ⟨hgap.not_mem rfl, not_mem_intercalate (by decide) fun o ho => (hops o ho).2⟩
    have starts : ∀ c ∈ (gap ++ [','].intercalate ops).head?, isBlank c = true := by
      rwa [List.head?_append_of_ne_nil _ gapNonempty]
    obtain ⟨mnemonic, operands⟩ := lineWord_lineOperands hbefore nonempty hword starts noComment hcomment
    rw [operandTexts_blanks_append hgap,
      operandTexts_intercalate opsNonempty notBlank fun o ho => (hops o ho).1] at operands
    intro line
    have hline : line = before ++ (word ++ (gap ++ [','].intercalate ops)) ++ comment := by simp [line]
    rw [hline]
    exact ⟨mnemonic, operands⟩

end Sys2Proof.Machine
end

section
/-! PROOFS. What the assembler makes of a line's mnemonic and operands (spec/30_encoding.md R78 to R80; the order of the
reasons is log entry 12). -/

namespace Sys2Proof.Machine

/-! Byte operands. -/

theorem byteOperand_of_literal {o : List Char} {n : Nat} (literal : numeral o = some n) (le : n ≤ 255) :
    byteOperand o = .ok (BitVec.ofNat 8 n) := by
  simp [byteOperand, literal, le]

theorem byteOperand_of_large {o : List Char} {n : Nat} (literal : numeral o = some n) (large : 255 < n) :
    byteOperand o = .error .byteRange := by
  simp [byteOperand, literal, large]

theorem literal_of_byteOperand_ok {o : List Char} {b : Byte} (h : byteOperand o = .ok b) :
    ∃ n, numeral o = some n ∧ n ≤ 255 := by
  unfold byteOperand at h
  split at h
  · cases h
  · next n literal =>
    split at h
    · next le => exact ⟨n, literal, le⟩
    · cases h

theorem byteOperands_of_literals {ops : List (List Char)} {ns : List Nat} (literals : ops.map numeral = ns.map some)
    (le : ∀ n ∈ ns, n ≤ 255) : byteOperands ops = .ok (ns.map (BitVec.ofNat 8)) := by
  induction ops generalizing ns with
  | nil => cases ns <;> simp_all [byteOperands]
  | cons o ops ih =>
    cases ns with
    | nil => simp at literals
    | cons n ns =>
      obtain ⟨literal, literals⟩ := List.cons.inj literals
      obtain ⟨len, le⟩ := List.forall_mem_cons.mp le
      simp [byteOperands, byteOperand_of_literal literal len, ih literals le]

theorem literals_of_byteOperands_ok {ops : List (List Char)} {bs : List Byte} (h : byteOperands ops = .ok bs) :
    ∀ o ∈ ops, ∃ n, numeral o = some n ∧ n ≤ 255 := by
  induction ops generalizing bs with
  | nil => simp
  | cons o ops ih =>
    unfold byteOperands at h
    split at h
    · cases h
    · next b hb =>
      split at h
      · cases h
      · next bs' hbs => exact List.forall_mem_cons.mpr ⟨literal_of_byteOperand_ok hb, ih hbs⟩

/-- The first operand that is no byte is what is refused. -/
theorem byteOperands_of_first_large {good rest : List (List Char)} {bad : List Char} {n : Nat}
    (hgood : ∀ o ∈ good, ∃ m, numeral o = some m ∧ m ≤ 255) (literal : numeral bad = some n) (large : 255 < n) :
    byteOperands (good ++ bad :: rest) = .error .byteRange := by
  induction good with
  | nil => simp [byteOperands, byteOperand_of_large literal large]
  | cons o good ih =>
    obtain ⟨⟨m, hm, le⟩, hgood⟩ := List.forall_mem_cons.mp hgood
    simp [byteOperands, byteOperand_of_literal hm le, ih hgood]

/-! The operand of RD: a register name is no numeral, so each operand is read one way. -/

theorem rdOperand_of_name : ∀ e ∈ registerNames, rdOperand e.1 = .ok e.2 := by decide

theorem numeralIn_of_name : ∀ e ∈ registerNames, numeralIn 10 e.1 = none := by decide

theorem find?_registerNames_of_numeral {r : List Char} {n : Nat} (index : numeralIn 10 r = some n) :
    registerNames.find? (fun e => e.1 = r) = none := by
  rw [List.find?_eq_none]
  rintro e he hname
  obtain rfl := of_decide_eq_true hname
  rw [numeralIn_of_name e he] at index
  cases index

theorem encode_of_rdOfIndex_ofNat :
    ∀ n ≤ 9, ∃ i ∈ rdOfIndex (BitVec.ofNat 4 n), encode i = ⟨BitVec.ofNat 8 (0x30 + n), []⟩ := by
  intro n hn
  interval_cases n <;> exact ⟨_, rfl, rfl⟩

theorem rdOperand_of_index {r : List Char} {n : Nat} (index : numeralIn 10 r = some n) (le : n ≤ 9) :
    ∃ i, rdOperand r = .ok i ∧ encode i = ⟨BitVec.ofNat 8 (0x30 + n), []⟩ := by
  obtain ⟨i, hi, hencode⟩ := encode_of_rdOfIndex_ofNat n le
  refine ⟨i, ?_, hencode⟩
  simp [rdOperand, find?_registerNames_of_numeral index, index, le, Option.mem_def.mp hi]

theorem rdOperand_of_large {r : List Char} {n : Nat} (index : numeralIn 10 r = some n) (large : 9 < n) :
    rdOperand r = .error .rdIndex := by
  simp [rdOperand, find?_registerNames_of_numeral index, index, large]

theorem name_or_index_of_rdOperand_ok {r : List Char} {i : Instr} (h : rdOperand r = .ok i) :
    (∃ e ∈ registerNames, e.1 = r) ∨ ∃ n, numeralIn 10 r = some n ∧ n ≤ 9 := by
  unfold rdOperand at h
  split at h
  · next e he =>
    exact .inl ⟨e, List.mem_of_find?_eq_some he, by simpa using List.find?_some he⟩
  · split at h
    · cases h
    · next n index =>
      split at h
      · next le => exact .inr ⟨n, index, le⟩
      · cases h

/-! A mnemonic with its operands. -/

theorem assembleOp_of_count {m : Mnemonic} {ops : List (List Char)} (count : ops.length ≠ m.operandCount) :
    assembleOp m ops = .error .operandCount :=
  if_pos count

theorem assembleOp_rd (r : List Char) : assembleOp .rd [r] = (rdOperand r).map fun i => [i] := by
  simp only [assembleOp, Mnemonic.operandCount]
  cases rdOperand r <;> rfl

theorem assembleOp_bytes {m : Mnemonic} {ops : List (List Char)} (notRd : m ≠ .rd)
    (count : ops.length = m.operandCount) : assembleOp m ops = (byteOperands ops).bind (assembleBytes m) := by
  unfold assembleOp
  rw [if_neg (not_not.mpr count)]
  split
  · exact absurd rfl notRd
  · cases byteOperands ops <;> rfl

/-! A line, through its mnemonic. -/

theorem find?_mnemonics : ∀ e ∈ mnemonics, mnemonics.find? (fun e' => e'.1 = e.1) = some e := by decide

theorem lineBody_ne_nil {cs : List Char} (h : lineWord cs ≠ []) : lineBody cs ≠ [] := by
  intro empty
  simp [lineWord, empty] at h

theorem assembleLine_of_mnemonic {cs w : List Char} {m : Mnemonic} (known : (w, m) ∈ mnemonics) (word : lineWord cs = w) :
    assembleLine cs = assembleOp m (lineOperands cs) := by
  have nonempty : ∀ e ∈ mnemonics, e.1 ≠ [] := by decide
  rw [assembleLine, if_neg (lineBody_ne_nil (word ▸ nonempty _ known)), word, find?_mnemonics _ known]

/-- Whatever is accepted is blank, or a mnemonic's. -/
theorem mnemonic_of_assembleLine_ok {cs : List Char} {is : List Instr} (h : assembleLine cs = .ok is) :
    (lineBody cs = [] ∧ is = []) ∨ ∃ e ∈ mnemonics, lineWord cs = e.1 ∧ assembleOp e.2 (lineOperands cs) = .ok is := by
  unfold assembleLine at h
  split at h
  · next empty => cases h; exact .inl ⟨empty, rfl⟩
  · split at h
    · cases h
    · next e he =>
      have word : e.1 = lineWord cs := by simpa using List.find?_some he
      exact .inr ⟨e, List.mem_of_find?_eq_some he, word.symm, h⟩

/-- Whatever operands are accepted are of the right number, and each is one of R78's. -/
theorem operands_of_assembleOp_ok {m : Mnemonic} {ops : List (List Char)} {is : List Instr}
    (h : assembleOp m ops = .ok is) :
    ops.length = m.operandCount ∧
      ∀ o ∈ ops,
        if m = .rd then (∃ r ∈ registerNames, r.1 = o) ∨ ∃ n, numeralIn 10 o = some n ∧ n ≤ 9
        else ∃ n, numeral o = some n ∧ n ≤ 255 := by
  have count : ops.length = m.operandCount := by
    by_contra wrong
    cases (assembleOp_of_count wrong).symm.trans h
  refine ⟨count, fun o ho => ?_⟩
  split
  · next rd =>
    subst rd
    obtain ⟨r, rfl⟩ := List.length_eq_one_iff.mp count
    obtain rfl := List.mem_singleton.mp ho
    rw [assembleOp_rd] at h
    cases hr : rdOperand o with
    | ok i => exact name_or_index_of_rdOperand_ok hr
    | error e => rw [hr] at h; cases h
  · next notRd =>
    rw [assembleOp_bytes notRd count] at h
    cases hbs : byteOperands ops with
    | ok bs => exact literals_of_byteOperands_ok hbs o ho
    | error e => rw [hbs] at h; cases h

/-! A program, line by line. -/

theorem assembleLines_of_first_refused {good rest : List (List Char)} {bad : List Char} {r : AsmReason}
    (hgood : ∀ l ∈ good, ∃ is, assembleLine l = .ok is) (refused : assembleLine bad = .error r) (n : Nat) :
    assembleLines n (good ++ bad :: rest) = .error ⟨n + good.length, r⟩ := by
  induction good generalizing n with
  | nil => simp [assembleLines, refused]
  | cons l good ih =>
    obtain ⟨⟨is, hl⟩, hgood⟩ := List.forall_mem_cons.mp hgood
    simp [assembleLines, hl, ih hgood (n + 1), Nat.add_right_comm n 1, Nat.add_assoc]

theorem assembleLines_cons_ok {n : Nat} {l : List Char} {ls : List (List Char)} {is : List Instr} :
    assembleLines n (l :: ls) = .ok is ↔
      ∃ first rest, assembleLine l = .ok first ∧ assembleLines (n + 1) ls = .ok rest ∧ is = first ++ rest := by
  rw [assembleLines]
  cases assembleLine l with
  | error r => simp
  | ok first => cases assembleLines (n + 1) ls <;> simp [eq_comm]

theorem assembleLines_ok_iff {n : Nat} {ls : List (List Char)} {is : List Instr} :
    assembleLines n ls = .ok is ↔ ∃ parts : List (List Instr), ls.map assembleLine = parts.map .ok ∧ is = parts.flatten := by
  induction ls generalizing n is with
  | nil => simp [assembleLines, eq_comm]
  | cons l ls ih =>
    rw [assembleLines_cons_ok]
    constructor
    · rintro ⟨first, rest, hl, hls, rfl⟩
      obtain ⟨parts, hparts, rfl⟩ := ih.mp hls
      exact ⟨first :: parts, by simp [hl, hparts], rfl⟩
    · rintro ⟨parts, hparts, rfl⟩
      cases parts with
      | nil => simp at hparts
      | cons first parts =>
        obtain ⟨hl, hls⟩ := List.cons.inj hparts
        exact ⟨first, parts.flatten, hl, ih.mpr ⟨parts, hls, rfl⟩, rfl⟩

/-- Settles O53: `assembleLine` looks the word up, counts the operands and reads them from left to right, and each test
that fails names itself. -/
theorem assemblerRefusesByNameAndLine : Obligations.AssemblerRefusesByNameAndLine := by
  unfold Obligations.AssemblerRefusesByNameAndLine
  refine ⟨fun cs nonempty unknown => ?_, fun cs e known word count => ?_,
    fun cs bad good rest n e known word notRd count operands hgood literal large => ?_,
    fun cs r n word operands index large => ?_, fun cs is accepted => ?_,
    fun n good rest bad r hgood refused => assembleLines_of_first_refused hgood refused n⟩
  · have notFound : mnemonics.find? (fun e => e.1 = lineWord cs) = none := by simpa using unknown
    rw [assembleLine, if_neg nonempty, notFound]
  · rw [assembleLine_of_mnemonic known word, assembleOp_of_count count]
  · rw [assembleLine_of_mnemonic known word, assembleOp_bytes notRd count, operands,
      byteOperands_of_first_large hgood literal large]
    rfl
  · rw [assembleLine_of_mnemonic (m := .rd) (by decide) word, operands, assembleOp_rd, rdOperand_of_large index large]
    rfl
  · refine (mnemonic_of_assembleLine_ok accepted).imp_right ?_
    rintro ⟨e, known, word, hop⟩
    exact ⟨e, known, word, operands_of_assembleOp_ok hop⟩

end Sys2Proof.Machine
end

section
/-! PROOFS. What the assembler gives, as frames (spec/30_encoding.md R70, R71, R78, R80), and its reading of an operation's
own text. -/

namespace Sys2Proof.Machine

/-! Lines of byte literals. -/

theorem assembleLine_of_literals {cs w : List Char} {m : Mnemonic} {ns : List Nat} (known : (w, m) ∈ mnemonics)
    (word : lineWord cs = w) (notRd : m ≠ .rd) (literals : (lineOperands cs).map numeral = ns.map some)
    (le : ∀ n ∈ ns, n ≤ 255) (count : ns.length = m.operandCount) :
    assembleLine cs = assembleBytes m (ns.map (BitVec.ofNat 8)) := by
  have length : (lineOperands cs).length = ns.length := by simpa using congrArg List.length literals
  rw [assembleLine_of_mnemonic known word, assembleOp_bytes notRd (length.trans count),
    byteOperands_of_literals literals le]
  rfl

/-- The opcode of a mnemonic that stands for one operation whose payload is its operands (R70, R71). -/
def Mnemonic.opcode : Mnemonic → Option Byte
  | .ldcoef => some 0x04#8
  | .ldrawp => some 0x00#8
  | .ldrawt => some 0x02#8
  | .compp => some 0x10#8
  | .compt => some 0x11#8
  | .invcoef => some 0x20#8
  | .rd | .pressure | .temperature | .reload => none

theorem assembleBytes_of_opcode {m : Mnemonic} {op : Byte} {bs : List Byte} (hop : m.opcode = some op)
    (count : bs.length = m.operandCount) : ∃ i, assembleBytes m bs = .ok [i] ∧ encode i = ⟨op, bs⟩ := by
  cases m <;> cases hop
  case ldcoef =>
    match bs, count with
    | [_, _, _, _, _, _, _, _], _ => exact ⟨_, rfl, rfl⟩
  case ldrawp =>
    obtain ⟨_, _, rfl⟩ := List.length_eq_two.mp count
    exact ⟨_, rfl, rfl⟩
  case ldrawt =>
    obtain ⟨_, _, rfl⟩ := List.length_eq_two.mp count
    exact ⟨_, rfl, rfl⟩
  all_goals
    obtain rfl := List.length_eq_zero_iff.mp count
    exact ⟨_, rfl, rfl⟩

theorem assembleBytes_temperature {bs : List Byte} (count : bs.length = 2) :
    ∃ is, assembleBytes .temperature bs = .ok is ∧ is.map encode = [⟨0x02#8, bs⟩, ⟨0x11#8, []⟩, ⟨0x39#8, []⟩] := by
  obtain ⟨_, _, rfl⟩ := List.length_eq_two.mp count
  exact ⟨_, rfl, rfl⟩

theorem assembleBytes_reload {bs : List Byte} (count : bs.length = 8) :
    ∃ is, assembleBytes .reload bs = .ok is ∧ is.map encode = [⟨0x20#8, []⟩, ⟨0x04#8, bs⟩] := by
  match bs, count with
  | [_, _, _, _, _, _, _, _], _ => exact ⟨_, rfl, rfl⟩

/-! RD by a register's name. -/

/-- The register names with their indices (R34). -/
def indexedNames : List (Nat × String) :=
  [(0, "STATUS"), (1, "A0"), (2, "B1"), (3, "B2"), (4, "C12"), (5, "RAW_P"), (6, "RAW_T"), (7, "PCOMP"),
    (8, "PRES_OUT"), (9, "TEMP_OUT")]

theorem registerNames_of_index :
    ∀ e ∈ indexedNames, ∃ r ∈ registerNames, r.1 = e.2.toList ∧ encode r.2 = ⟨BitVec.ofNat 8 (0x30 + e.1), []⟩ := by
  decide

theorem rdOperand_of_indexedName {r : List Char} {n : Nat} (h : (n, String.ofList r) ∈ indexedNames) :
    ∃ i, rdOperand r = .ok i ∧ encode i = ⟨BitVec.ofNat 8 (0x30 + n), []⟩ := by
  obtain ⟨e, he, name, hencode⟩ := registerNames_of_index _ h
  refine ⟨e.2, ?_, hencode⟩
  rw [String.toList_ofList] at name
  exact name ▸ rdOperand_of_name e he

/-- Settles O58: a mnemonic's bytes are its operands' (`assembleLine_of_literals`), RD's operand is a name or an index, and
a program is `assembleLines_ok_iff`. -/
theorem assemblerEncodesItsOperands : Obligations.AssemblerEncodesItsOperands := by
  unfold Obligations.AssemblerEncodesItsOperands
  refine ⟨fun cs ns literals le => ?_, fun cs r n word operands hr => ?_, fun n ls is => assembleLines_ok_iff⟩
  · intro bs
    have line : ∀ {w m}, (w, m) ∈ mnemonics → m ≠ .rd → lineWord cs = w → ns.length = m.operandCount →
        assembleLine cs = assembleBytes m bs ∧ bs.length = m.operandCount := fun known notRd word count =>
      ⟨assembleLine_of_literals known word notRd literals le count, (List.length_map _).trans count⟩
    have single : ∀ {w m op}, (w, m) ∈ mnemonics → m.opcode = some op → lineWord cs = w → ns.length = m.operandCount →
        ∃ i, assembleLine cs = .ok [i] ∧ encode i = ⟨op, bs⟩ := fun {w m op} known hop word count => by
      obtain ⟨hline, length⟩ := line known (by rintro rfl; cases hop) word count
      exact hline ▸ assembleBytes_of_opcode hop length
    refine ⟨?_, fun pm pl tm tl word hbs => ?_, fun word count => ?_, fun word count => ?_⟩
    · simp only [List.forall_mem_cons]
      exact ⟨single (m := .ldcoef) (by decide) rfl, single (m := .ldrawp) (by decide) rfl,
        single (m := .ldrawt) (by decide) rfl, single (m := .compp) (by decide) rfl,
        single (m := .compt) (by decide) rfl, single (m := .invcoef) (by decide) rfl, by simp⟩
    · have count : ns.length = 4 := by simpa [bs] using congrArg List.length hbs
      obtain ⟨hline, -⟩ := line (m := .pressure) (by decide) (by decide) word count
      rw [hline, hbs]
      exact ⟨_, rfl, rfl⟩
    · obtain ⟨hline, length⟩ := line (m := .temperature) (by decide) (by decide) word count
      exact hline ▸ assembleBytes_temperature length
    · obtain ⟨hline, length⟩ := line (m := .reload) (by decide) (by decide) word count
      exact hline ▸ assembleBytes_reload length
  · obtain ⟨i, hi, hencode⟩ : ∃ i, rdOperand r = .ok i ∧ encode i = ⟨BitVec.ofNat 8 (0x30 + n), []⟩ := by
      rcases hr with ⟨le, index⟩ | name
      · exact rdOperand_of_index index le
      · exact rdOperand_of_indexedName name
    refine ⟨i, ?_, hencode⟩
    rw [assembleLine_of_mnemonic (m := .rd) (by decide) word, operands, assembleOp_rd, hi]
    rfl

/-! An operation's own text. -/

theorem hexDigit_spec : ∀ n < 16, digitValue (hexDigit n) = some n ∧ isBlank (hexDigit n) = false ∧
    hexDigit n ≠ ',' ∧ hexDigit n ≠ ';' := by
  decide

/-- A byte as its `0x` literal. -/
def hexLiteral (b : Byte) : List Char :=
  '0' :: 'x' :: hexByte b

theorem byteTexts_eq (bs : List Byte) : byteTexts bs = [',', ' '].intercalate (bs.map hexLiteral) := rfl

theorem numeral_hexLiteral (b : Byte) : numeral (hexLiteral b) = some b.toNat := by
  have hb := b.isLt
  obtain ⟨high, -⟩ := hexDigit_spec (b.toNat / 16) (by omega)
  obtain ⟨low, -⟩ := hexDigit_spec (b.toNat % 16) (by omega)
  have highLt : b.toNat / 16 < 16 := by omega
  have lowLt : b.toNat % 16 < 16 := by omega
  simp [numeral, hexLiteral, hexByte, numeralIn, digitsFrom, high, low, highLt, lowLt, Nat.div_add_mod]

theorem trim_hexLiteral (b : Byte) : trim (hexLiteral b) = hexLiteral b := by
  obtain ⟨-, notBlank, -⟩ := hexDigit_spec (b.toNat % 16) (by omega)
  simp [trim, hexLiteral, hexByte, notBlank, show isBlank '0' = false from rfl]

theorem not_mem_hexLiteral (b : Byte) : ',' ∉ hexLiteral b ∧ ';' ∉ hexLiteral b := by
  have hb := b.isLt
  obtain ⟨-, -, highComma, highSemicolon⟩ := hexDigit_spec (b.toNat / 16) (by omega)
  obtain ⟨-, -, lowComma, lowSemicolon⟩ := hexDigit_spec (b.toNat % 16) (by omega)
  simp [hexLiteral, hexByte, highComma.symm, highSemicolon.symm, lowComma.symm, lowSemicolon.symm]

/-- A comma and a space between texts is a comma between texts that begin with a space. -/
theorem space_append_intercalate_comma_space (texts : List (List Char)) (nonempty : texts ≠ []) :
    ' ' :: [',', ' '].intercalate texts = [','].intercalate (texts.map (' ' :: ·)) := by
  match texts with
  | [t] => simp
  | t :: t' :: ts =>
    have ih := space_append_intercalate_comma_space (t' :: ts) (by simp)
    simp only [List.map_cons, List.intercalate_cons_cons] at ih ⊢
    simp [← ih]

theorem word_of_mnemonic : ∀ e ∈ mnemonics, e.1 ≠ [] ∧ ∀ c ∈ e.1, isBlank c = false ∧ c ≠ ';' := by
  simp [mnemonics, isBlank]

theorem toUpper_of_mnemonic : ∀ e ∈ mnemonics, e.1.map Char.toUpper = e.1 := by decide

/-- A mnemonic with byte literals, as `sourceLine` writes it, is read as just that. -/
theorem lineWord_lineOperands_byteTexts {w : List Char} {m : Mnemonic} (known : (w, m) ∈ mnemonics) {bs : List Byte}
    (nonempty : bs ≠ []) :
    lineWord (w ++ ' ' :: byteTexts bs) = w ∧ lineOperands (w ++ ' ' :: byteTexts bs) = bs.map hexLiteral := by
  obtain ⟨wordNonempty, hword⟩ := word_of_mnemonic _ known
  have joined : ' ' :: byteTexts bs = [','].intercalate ((bs.map hexLiteral).map (' ' :: ·)) := by
    rw [byteTexts_eq, space_append_intercalate_comma_space _ (by simpa using nonempty)]
  have trimmed : ((bs.map hexLiteral).map (' ' :: ·)).map trim = bs.map hexLiteral := by
    have space : ∀ b, trim (' ' :: hexLiteral b) = hexLiteral b := fun b =>
      (trim_blanks_append (bs := [' ']) (by simp [Blank, isBlank]) _).trans (trim_hexLiteral b)
    simp [Function.comp_def, space]
  have notBlank : bs.map hexLiteral ≠ [[]] := by
    cases bs <;> simp [hexLiteral]
  have noComment : ';' ∉ ' ' :: byteTexts bs := by
    rw [joined]
    exact not_mem_intercalate (by decide) (by simpa using fun b _ => (not_mem_hexLiteral b).2)
  obtain ⟨mnemonic, operands⟩ := lineWord_lineOperands (before := []) (comment := []) (by simp [Blank]) wordNonempty
    hword (rest := ' ' :: byteTexts bs) (by simp [isBlank]) noComment (.inl rfl)
  rw [List.nil_append, List.append_nil] at mnemonic operands
  refine ⟨mnemonic.trans (toUpper_of_mnemonic _ known), ?_⟩
  rw [operands, joined, operandTexts_intercalate (by simpa using nonempty) (by rwa [trimmed])
    (by simpa using fun b _ => (not_mem_hexLiteral b).1), trimmed]

theorem assembleLine_byteTexts {w : List Char} {m : Mnemonic} (known : (w, m) ∈ mnemonics) (notRd : m ≠ .rd)
    {bs : List Byte} (nonempty : bs ≠ []) (count : bs.length = m.operandCount) :
    assembleLine (w ++ ' ' :: byteTexts bs) = assembleBytes m bs := by
  obtain ⟨word, operands⟩ := lineWord_lineOperands_byteTexts known nonempty
  rw [assembleLine_of_literals (ns := bs.map BitVec.toNat) known word notRd]
  · simp [Function.comp_def]
  · simp [operands, Function.comp_def, numeral_hexLiteral]
  · simpa using fun b _ => Nat.lt_succ_iff.mp b.isLt
  · simpa using count

/-- Settles O52: a load's line is its mnemonic with byte literals (`assembleLine_byteTexts`); every other operation has one
text. -/
theorem assemblerReadsItsOwnText : Obligations.AssemblerReadsItsOwnText := by
  unfold Obligations.AssemblerReadsItsOwnText
  intro i
  cases i
  case ldcoef p0 p1 p2 p3 p4 p5 p6 p7 =>
    exact assembleLine_byteTexts (w := "LDCOEF".toList) (m := .ldcoef) (bs := [p0, p1, p2, p3, p4, p5, p6, p7])
      (by decide) (by decide) (by simp) rfl
  case ldrawp m l =>
    exact assembleLine_byteTexts (w := "LDRAWP".toList) (m := .ldrawp) (bs := [m, l]) (by decide) (by decide)
      (by simp) rfl
  case ldrawt m l =>
    exact assembleLine_byteTexts (w := "LDRAWT".toList) (m := .ldrawt) (bs := [m, l]) (by decide) (by decide)
      (by simp) rfl
  all_goals decide

end Sys2Proof.Machine
end

section
/-! PROOFS. The payload decoders and the load operations (spec/40_load_ops.md R101, R102, R104 to R106, R108). -/

namespace Sys2Proof.Machine

/-! The Signed Register Decoder and the c12 code (R101, R102). -/

/-- Settles O7: `dec_eq`, by the `NEG_OFFSET` and by the high bit of the word. -/
theorem signedDecoderFollowsAlgorithm : Obligations.SignedDecoderFollowsAlgorithm := by
  unfold Obligations.SignedDecoderFollowsAlgorithm
  refine ⟨fun m l => ?_, by decide⟩
  intro w
  have w_lt : w < 65536 := by
    have word_lt := (wordOf m l).isLt
    rwa [wordOf_toNat] at word_lt
  have dec_word : ∀ k, dec k m l = (w : Int) - if 32768 ≤ w then k.value else 0 := fun k => dec_eq k m l
  clear_value w
  simp only [dec_word, NegOffset.value]
  by_cases high : 32768 ≤ w
  · simp only [if_pos high, if_neg (not_lt.mpr high), true_and]
    omega
  · simp only [if_neg high, if_pos (not_le.mp high)]
    omega

/-- The right shift by 2 is the floor of a quarter (R10, R102). -/
theorem decC12_eq (k : NegOffset) (m l : Byte) : decC12 k m l = dec k m l / 4 := rfl

/-- R25: the c12 code is a 14-bit two's complement number, for either `NEG_OFFSET`. -/
theorem decC12_mem_int14 (k : NegOffset) (m l : Byte) : -8192 ≤ decC12 k m l ∧ decC12 k m l ≤ 8191 := by
  have range := dec_mem_int16 k m l
  rw [decC12_eq]
  omega

theorem toInt_ofInt_decC12 (k : NegOffset) (m l : Byte) : (BitVec.ofInt 14 (decC12 k m l)).toInt = decC12 k m l :=
  toInt_ofInt_14 (decC12_mem_int14 k m l)

/-- Settles O8: `decC12` is a floor division (`decC12_eq`) whose result the 14 bits of `C12` hold. -/
theorem c12ShiftFloors : Obligations.C12ShiftFloors := by
  unfold Obligations.C12ShiftFloors
  refine ⟨fun k m l => ?_, by decide⟩
  obtain ⟨least, greatest⟩ := decC12_mem_int14 k m l
  have floor := decC12_eq k m l
  exact ⟨by omega, by omega, least, greatest, fun _ _ _ _ _ _ => toInt_ofInt_decC12 k m l⟩

/-! The raw decoder (R105). -/

/-- The word shifted right by 6 fits the ten bits, so the truncation loses nothing. -/
theorem raw_toNat (m l : Byte) : (raw m l).toNat = (m.toNat * 256 + l.toNat) / 64 := by
  have fits : (m.toNat * 256 + l.toNat) / 64 < 2 ^ 10 := by
    have := m.isLt
    have := l.isLt
    omega
  rw [raw, BitVec.toNat_setWidth, BitVec.toNat_ushiftRight, wordOf_toNat, Nat.shiftRight_eq_div_pow]
  exact Nat.mod_eq_of_lt fits

/-- Settles O9: `raw_toNat`; of the low byte the quotient by 64 keeps `l / 64` only. -/
theorem rawDecoderTakesUpperTenBits : Obligations.RawDecoderTakesUpperTenBits := by
  unfold Obligations.RawDecoderTakesUpperTenBits
  refine ⟨fun m l => ⟨raw_toNat m l, Nat.le_of_lt_succ (raw m l).isLt⟩, fun m l l' upper => ?_, by decide⟩
  apply BitVec.eq_of_toNat_eq
  rw [raw_toNat, raw_toNat]
  omega

/-! The three loads (R104, R106, R108). -/

/-- A delivered frame of an operation runs it (R74). -/
theorem step_encode {s : State} {i : Instr} {ms : List HostMove} (port : s.port = .deliver (encode i) :: ms) :
    step s = exec i (s.setPort ms) :=
  step_decoded port (decode_encode i)

/-- Settles O10: each register holds its decoded code exactly; the frame is the operation's encoding; O5 is the fault. -/
theorem ldcoefLoadsCoefficients : Obligations.LdcoefLoadsCoefficients := by
  unfold Obligations.LdcoefLoadsCoefficients
  obtain ⟨wrongLength, -⟩ := wrongPayloadLengthFaults
  refine ⟨fun s p0 p1 p2 p3 p4 p5 p6 p7 => ?_, fun s p0 p1 p2 p3 p4 p5 p6 p7 ms port => ?_,
    fun s f ms port op length => wrongLength s f ms port (.inl ⟨op, length⟩), ?_⟩
  · exact ⟨coefsOf s.params.negOffset p0 p1 p2 p3 p4 p5 p6 p7, rfl, toInt_ofInt_dec _ p0 p1, toInt_ofInt_dec _ p2 p3,
      toInt_ofInt_dec _ p4 p5, toInt_ofInt_decC12 _ p6 p7⟩
  · exact step_encode (i := .ldcoef p0 p1 p2 p3 p4 p5 p6 p7) port
  · exact ⟨_, rfl, by decide, by decide⟩

/-- Settles O11: the count stays latched (`raw_toNat`) until a COMPP takes it (`exec_compp`); O5 is the fault. -/
theorem ldrawpLatchesPressure : Obligations.LdrawpLatchesPressure := by
  unfold Obligations.LdrawpLatchesPressure
  obtain ⟨wrongLength, -⟩ := wrongPayloadLengthFaults
  refine ⟨fun s m l => ⟨raw m l, rfl, raw_toNat m l, ?_⟩, fun s m l ms port => step_encode (i := .ldrawp m l) port,
    fun s f ms port op length => wrongLength s f ms port (.inr <| .inl ⟨by simp [op], length⟩), _, rfl, by decide⟩
  rintro t c tr ⟨⟩ coef rawT
  exact ⟨_, exec_compp coef rfl rawT, rfl⟩

/-- Settles O12: the count stays latched (`raw_toNat`) until a COMPP or a COMPT takes it (`exec_compp`, `exec_compt`); O5
is the fault. -/
theorem ldrawtLatchesTemperature : Obligations.LdrawtLatchesTemperature := by
  unfold Obligations.LdrawtLatchesTemperature
  obtain ⟨wrongLength, -⟩ := wrongPayloadLengthFaults
  refine ⟨fun s m l => ⟨raw m l, rfl, raw_toNat m l, ?_⟩, fun s m l ms port => step_encode (i := .ldrawt m l) port,
    fun s f ms port op length => wrongLength s f ms port (.inr <| .inl ⟨by simp [op], length⟩), _, rfl, by decide⟩
  rintro t c ⟨⟩ coef
  exact ⟨fun pr rawP => ⟨_, exec_compp coef rawP rfl, rfl⟩, _, exec_compt coef rfl, rfl⟩

end Sys2Proof.Machine
end

section
/-! PROOFS. Exact binary64 operations (spec/00_scope.md R11), and the scales of the coefficients (spec/40_load_ops.md
R103). -/

namespace Sys2Proof.Machine

/-- `x` is the canonical finite value of sign `neg` and magnitude `q`. -/
def F64.represents (x : F64) (neg : Bool) (q : ℚ) : Prop :=
  ∃ m e, x = .fin neg m e ∧ (F64.fin neg m e).canonical = true ∧ (m : ℚ) * 2 ^ e = q

/-- A magnitude that binary64 holds with room to spare: at most 53 significant bits, exponent in the range where neither
end of the format is met. -/
def isExactMagnitude (q : ℚ) : Prop :=
  ∃ (M : Nat) (E : Int), M < 2 ^ 53 ∧ -1074 ≤ E ∧ E ≤ 969 ∧ q = M * 2 ^ E

theorem F64.represents.eq {x y : F64} {neg : Bool} {q : ℚ} (hx : x.represents neg q) (hy : y.represents neg q) :
    x = y := by
  obtain ⟨m₁, e₁, rfl, canonical₁, value₁⟩ := hx
  obtain ⟨m₂, e₂, rfl, canonical₂, value₂⟩ := hy
  obtain ⟨rfl, rfl⟩ := canonical_unique canonical₁ canonical₂ (value₁.trans value₂.symm)
  rfl

theorem F64.represents.units {x : F64} {neg : Bool} {q : ℚ} (h : x.represents neg q) :
    (x.units : ℚ) = (if neg then -1 else 1) * q * 2 ^ (1074 : Int) := by
  obtain ⟨m, e, rfl, canonical, rfl⟩ := h
  obtain ⟨-, least, -⟩ := of_decide_eq_true canonical
  exact units_eq least

/-- Rounding keeps a magnitude that the format holds, zero included. -/
theorem roundRatio_represents (neg : Bool) (n : Nat) {d : Nat} (hd : 0 < d) (exact : isExactMagnitude ((n : ℚ) / d)) :
    (roundRatio neg n d).represents neg ((n : ℚ) / d) := by
  rcases Nat.eq_zero_or_pos n with rfl | hn
  · exact ⟨0, -1074, rfl, by simp [F64.canonical], by simp⟩
  · obtain ⟨M, E, hM, hE, hE', value⟩ := exact
    exact roundRatio_exact neg hn hd hM hE hE' value

theorem roundScaled_represents (neg : Bool) (n : Nat) {d : Nat} (hd : 0 < d) (e : Int)
    (exact : isExactMagnitude ((n : ℚ) / d * 2 ^ e)) :
    (roundScaled neg n d e).represents neg ((n : ℚ) / d * 2 ^ e) := by
  have value : ((n * 2 ^ e.toNat : Nat) : ℚ) / ((d * 2 ^ (-e).toNat : Nat) : ℚ) = (n : ℚ) / d * 2 ^ e := by
    have scaled := scaled_quotient n d (-e)
    rwa [neg_neg, zpow_neg, div_inv_eq_mul] at scaled
  rw [← value] at exact ⊢
  exact roundRatio_represents neg _ (by positivity) exact

/-- R11: the conversion of a code of at most 53 bits never rounds. -/
theorem f64_represents {v : Int} {k : Nat} (hv : v.natAbs < 2 ^ 53) (hk : k ≤ 1074) :
    (f64 v k).represents (decide (v < 0)) (v.natAbs * 2 ^ (-(k : Int))) := by
  have rounded := roundScaled_represents (decide (v < 0)) v.natAbs Nat.one_pos (-(k : Int))
  rw [Nat.cast_one, div_one] at rounded
  exact rounded ⟨v.natAbs, -(k : Int), hv, by omega, by omega, rfl⟩

/-- A division whose quotient the format holds does not round (R11). -/
theorem fdiv64_represents {x y : F64} {a b : Bool} {p q : ℚ} (hx : x.represents a p) (hy : y.represents b q)
    (hq : q ≠ 0) (exact : isExactMagnitude (p / q)) : (fdiv64 x y).represents (a ^^ b) (p / q) := by
  obtain ⟨m₁, e₁, rfl, -, rfl⟩ := hx
  obtain ⟨m₂, e₂, rfl, -, rfl⟩ := hy
  have hm₂ : m₂ ≠ 0 := by
    rintro rfl
    simp at hq
  have value : (m₁ : ℚ) * 2 ^ e₁ / (m₂ * 2 ^ e₂) = (m₁ : ℚ) / m₂ * 2 ^ (e₁ - e₂) := by
    rw [zpow_sub₀ two_ne_zero, mul_div_mul_comm]
  rw [value] at exact ⊢
  simp only [fdiv64, if_neg hm₂]
  exact roundScaled_represents _ m₁ (Nat.pos_of_ne_zero hm₂) _ exact

/-- The exact value of a converted code, in the format's least unit (R11). -/
theorem f64_units {v : Int} {k : Nat} (hv : v.natAbs < 2 ^ 53) (hk : k ≤ 1074) :
    (f64 v k).units = v * 2 ^ (1074 - k) := by
  have sign : (if decide (v < 0) then -1 else 1 : ℚ) * v.natAbs = v := by
    rcases lt_or_ge v 0 with neg | nonneg
    · simp [neg, abs_of_neg]
    · simp [nonneg, abs_of_nonneg, not_lt.mpr nonneg]
  have scale : (2 : ℚ) ^ (-(k : Int)) * 2 ^ (1074 : Int) = 2 ^ (1074 - k) := by
    rw [← zpow_add₀ two_ne_zero, ← zpow_natCast, Nat.cast_sub hk]
    congr 1
    push_cast
    ring
  have units := (f64_represents hv hk).units
  rw [← mul_assoc, sign, mul_assoc, scale] at units
  exact_mod_cast units

/-- R103: dividing a code by a power of two in binary64 only moves the binary point. -/
theorem fdiv64_f64_two_pow {v : Int} {k : Nat} (hv : v.natAbs < 2 ^ 53) (hk : k < 53) :
    fdiv64 (f64 v 0) (f64 (2 ^ k) 0) = f64 v k := by
  have code := f64_represents (k := 0) hv (by omega)
  have divisor : (f64 (2 ^ k) 0).represents false (2 ^ k) := by
    have small : ((2 : Int) ^ k).natAbs < 2 ^ 53 := by
      rw [Int.natAbs_pow]
      exact Nat.pow_lt_pow_right one_lt_two hk
    have nonneg : ¬ (2 : Int) ^ k < 0 := not_lt.mpr (by positivity)
    simpa [Int.natAbs_pow, nonneg] using f64_represents (k := 0) small (by omega)
  have quotient : (v.natAbs : ℚ) * 2 ^ (-((0 : Nat) : Int)) / 2 ^ k = v.natAbs * 2 ^ (-(k : Int)) := by
    rw [zpow_neg, zpow_natCast]
    simp [div_eq_mul_inv]
  have divided := fdiv64_represents code divisor (by positivity)
    ⟨v.natAbs, -(k : Int), hv, by omega, by omega, quotient⟩
  rw [quotient, Bool.xor_false] at divided
  exact divided.eq (f64_represents hv (by omega))

/-- Settles O13: a 16-bit or 14-bit code has less than 53 bits. -/
theorem coefficientScalesAreExact : Obligations.CoefficientScalesAreExact := by
  unfold Obligations.CoefficientScalesAreExact
  have small16 : ∀ v : BitVec 16, v.toInt.natAbs < 2 ^ 53 := fun v => by
    have := v.le_toInt
    have := v.toInt_lt
    omega
  have small14 : ∀ v : BitVec 14, v.toInt.natAbs < 2 ^ 53 := fun v => by
    have := v.le_toInt
    have := v.toInt_lt
    omega
  exact ⟨fun v => ⟨fdiv64_f64_two_pow (k := 3) (small16 v) (by omega), f64_units (small16 v) (by omega),
      fdiv64_f64_two_pow (k := 13) (small16 v) (by omega), f64_units (small16 v) (by omega),
      fdiv64_f64_two_pow (k := 14) (small16 v) (by omega), f64_units (small16 v) (by omega)⟩,
    fun v => ⟨fdiv64_f64_two_pow (k := 22) (small14 v) (by omega), f64_units (small14 v) (by omega)⟩⟩

end Sys2Proof.Machine
end

section
/-! PROOFS. Every binary64 operation of the engine as its exact rational result rounded once (spec/00_scope.md R11,
spec/41_compute_ops.md R129). -/

namespace Sys2Proof.Machine

/-! Finite values as signed rationals. -/

/-- The sign of a value, as a factor. -/
def signOf (neg : Bool) : ℚ :=
  if neg then -1 else 1

theorem signOf_xor (a b : Bool) : signOf (a ^^ b) = signOf a * signOf b := by
  cases a <;> cases b <;> simp [signOf]

theorem signOf_div (a b : Bool) : signOf a / signOf b = signOf a * signOf b := by
  cases a <;> cases b <;> norm_num [signOf]

theorem abs_signOf_mul (a : Bool) (q : ℚ) : |signOf a * q| = |q| := by
  cases a <;> simp [signOf]

theorem signOf_mul_natAbs (v : Int) : signOf (decide (v < 0)) * v.natAbs = v := by
  rcases lt_or_ge v 0 with neg | nonneg
  · simp [signOf, neg, abs_of_neg]
  · simp [signOf, nonneg, abs_of_nonneg, not_lt.mpr nonneg]

/-- `x` is finite, in canonical form, and of exact value `q`. A zero is of value 0 with either sign. -/
def F64.hasValue (x : F64) (q : ℚ) : Prop :=
  ∃ neg m e, x = .fin neg m e ∧ (F64.fin neg m e).canonical = true ∧ signOf neg * (m * 2 ^ e) = q

/-- The binary64 value -0.0, which no output of the engine is (R123, R126). -/
def negZero : F64 :=
  .fin true 0 (-1074)

section
variable {x y : F64} {p q : ℚ}

theorem F64.represents.hasValue {neg : Bool} (h : x.represents neg q) : x.hasValue (signOf neg * q) := by
  obtain ⟨m, e, rfl, canonical, rfl⟩ := h
  exact ⟨neg, m, e, rfl, canonical, rfl⟩

theorem F64.hasValue.isFinite (h : x.hasValue q) : x.isFinite = true := by
  obtain ⟨neg, m, e, rfl, -, -⟩ := h
  rfl

theorem F64.hasValue.ne_negZero (h : x.hasValue q) (hq : q ≠ 0) : x ≠ negZero := by
  obtain ⟨neg, m, e, rfl, -, rfl⟩ := h
  rintro ⟨⟩
  simp at hq

/-- With the negative sign and a value that is not negative, a canonical form is `negZero`. -/
theorem eq_negZero_of_nonneg {m : Nat} {e : Int} (canonical : (F64.fin true m e).canonical = true)
    (nonneg : 0 ≤ signOf true * (m * 2 ^ e)) : F64.fin true m e = negZero := by
  have magnitude : (0 : ℚ) ≤ m * 2 ^ e := by positivity
  have zero : (m : ℚ) * 2 ^ e = 0 := by
    simp only [signOf, if_true] at nonneg
    linarith
  obtain rfl : m = 0 := by simpa [(two_zpow_pos e).ne'] using zero
  obtain ⟨-, -, -, normal | rfl⟩ := of_decide_eq_true canonical
  · simp at normal
  · rfl

theorem signOf_false_mul_nonneg (m : Nat) (e : Int) : 0 ≤ signOf false * ((m : ℚ) * 2 ^ e) := by
  simp only [signOf, Bool.false_eq_true, if_false]
  positivity

/-- The canonical form of a value is one, but for the sign of a zero. -/
theorem F64.hasValue.eq (hx : x.hasValue q) (hy : y.hasValue q) (hx' : x ≠ negZero) (hy' : y ≠ negZero) : x = y := by
  obtain ⟨a, m₁, e₁, rfl, canonical₁, value₁⟩ := hx
  obtain ⟨b, m₂, e₂, rfl, canonical₂, value₂⟩ := hy
  have value := value₁.trans value₂.symm
  cases a <;> cases b
  case false.true => exact absurd (eq_negZero_of_nonneg canonical₂ (value ▸ signOf_false_mul_nonneg m₁ e₁)) hy'
  case true.false => exact absurd (eq_negZero_of_nonneg canonical₁ (value ▸ signOf_false_mul_nonneg m₂ e₂)) hx'
  case false.false =>
    obtain ⟨rfl, rfl⟩ := canonical_unique canonical₁ canonical₂ (by simpa [signOf] using value)
    rfl
  case true.true =>
    obtain ⟨rfl, rfl⟩ := canonical_unique canonical₁ canonical₂ (by simpa [signOf] using value)
    rfl

/-! A value in the format's least unit. -/

theorem F64.hasValue.units (h : x.hasValue q) : (x.units : ℚ) = q * 2 ^ 1074 := by
  obtain ⟨neg, m, e, rfl, canonical, rfl⟩ := h
  obtain ⟨-, least, -⟩ := of_decide_eq_true canonical
  rw [units_eq least, signOf, ← zpow_natCast]
  rfl

/-- Values compare as their units do. -/
theorem F64.hasValue.units_le (hx : x.hasValue p) (hy : y.hasValue q) : x.units ≤ y.units ↔ p ≤ q := by
  rw [← @Int.cast_le ℚ, hx.units, hy.units, mul_le_mul_iff_left₀ (by positivity)]

theorem F64.hasValue.units_lt (hx : x.hasValue p) (hy : y.hasValue q) : x.units < y.units ↔ p < q := by
  rw [← @Int.cast_lt ℚ, hx.units, hy.units, mul_lt_mul_iff_left₀ (by positivity)]

theorem F64.hasValue.units_code {v : Int} {k : Nat} (hk : k ≤ 1074) (h : x.hasValue (v / 2 ^ k)) :
    x.units = v * 2 ^ (1074 - k) := by
  have units := h.units
  rw [div_mul_eq_mul_div, mul_div_assoc, div_eq_mul_inv, ← pow_sub₀ (2 : ℚ) two_ne_zero hk] at units
  exact_mod_cast units

theorem F64.hasValue.abs_units (h : x.hasValue q) : (|x.units| : ℚ) = |q| * 2 ^ 1074 := by
  rw [h.units, abs_mul, abs_of_pos (show (0 : ℚ) < 2 ^ 1074 by positivity)]

theorem F64.hasValue.le_mul_units {a b : Int} (h : x.hasValue q) (le : (a : ℚ) ≤ b * q) :
    a * 2 ^ 1074 ≤ b * x.units := by
  rw [← @Int.cast_le ℚ]
  simp only [Int.cast_mul, Int.cast_pow, Int.cast_ofNat]
  rw [h.units, ← mul_assoc]
  exact mul_le_mul_of_nonneg_right le (by positivity)

theorem F64.hasValue.mul_units_le {a b : Int} (h : x.hasValue q) (le : b * q ≤ (a : ℚ)) :
    b * x.units ≤ a * 2 ^ 1074 := by
  have negated := h.le_mul_units (a := -a) (b := -b) (by push_cast; linarith)
  rwa [neg_mul, neg_mul, neg_le_neg_iff] at negated

theorem F64.hasValue.lt_mul_abs_units {a b : Int} (h : x.hasValue q) (lt : (a : ℚ) < b * |q|) :
    a * 2 ^ 1074 < b * |x.units| := by
  rw [← @Int.cast_lt ℚ]
  simp only [Int.cast_mul, Int.cast_pow, Int.cast_ofNat, Int.cast_abs]
  rw [h.abs_units, ← mul_assoc]
  exact mul_lt_mul_of_pos_right lt (by positivity)

/-- A magnitude of at least `2^-b`, in units. -/
theorem F64.hasValue.two_pow_le_abs_units {a b : Nat} (hab : a + b = 1074) (h : x.hasValue q) (le : 1 / 2 ^ b ≤ |q|) :
    2 ^ a ≤ |x.units| := by
  have one_le : 1 ≤ |q| * 2 ^ b := (div_le_iff₀ (by positivity)).mp le
  have bound := le_mul_of_one_le_left (show (0 : ℚ) ≤ 2 ^ a by positivity) one_le
  rw [mul_assoc, ← pow_add, add_comm b, hab, ← h.abs_units] at bound
  exact_mod_cast bound

/-! The 64-bit pattern. -/

/-- The exponent and fraction fields of a finite value's pattern, and how they are read back. -/
theorem exists_fields {neg : Bool} {m : Nat} {e : Int} (canonical : (F64.fin neg m e).canonical = true) :
    ∃ X F : Nat, X < 2047 ∧ F < 2 ^ 52 ∧ (F64.fin neg m e).bits.toNat = signBits neg + (X * 2 ^ 52 + F) ∧
      (if X = 0 then F64.fin neg F (-1074) else .fin neg (2 ^ 52 + F) ((X : Int) - 1075)) = .fin neg m e := by
  obtain ⟨hm, least, greatest, normal⟩ := of_decide_eq_true canonical
  have sign : signBits neg ≤ 2 ^ 63 := by cases neg <;> decide
  simp only [F64.bits, BitVec.toNat_ofNat]
  by_cases subnormal : m < 2 ^ 52
  · obtain rfl : e = -1074 := by omega
    refine ⟨0, m, by omega, subnormal, ?_, rfl⟩
    rw [if_pos subnormal]
    omega
  · refine ⟨(e + 1075).toNat, m - 2 ^ 52, by omega, by omega, ?_, ?_⟩
    · rw [if_neg subnormal]
      omega
    · rw [if_neg (by omega)]
      simp only [F64.fin.injEq, true_and]
      omega

/-- R11: a finite value is read back from its pattern. -/
theorem F64.hasValue.ofBits_bits (h : x.hasValue q) : F64.ofBits x.bits = x := by
  obtain ⟨neg, m, e, rfl, canonical, -⟩ := h
  obtain ⟨X, F, hX, hF, pattern, value⟩ := exists_fields canonical
  have sign : (F64.fin neg m e).bits.getLsbD 63 = neg := by
    rw [← BitVec.msb_eq_getLsbD_last, BitVec.msb_eq_decide, pattern]
    cases neg <;> simp [signBits]; omega
  have signs : signBits neg = 0 ∨ signBits neg = 2 ^ 63 := by cases neg <;> simp [signBits]
  have exponent : (F64.fin neg m e).bits.toNat / 2 ^ 52 % 2 ^ 11 = X := by omega
  have fraction : (F64.fin neg m e).bits.toNat % 2 ^ 52 = F := by omega
  simp only [F64.ofBits, sign, exponent, fraction]
  rw [if_neg hX.ne, value]

theorem F64.hasValue.bits_ne_negZero (h : x.hasValue q) (hq : q ≠ 0) : x.bits ≠ 0x8000000000000000#64 := by
  intro pattern
  refine h.ne_negZero hq ?_
  rw [← h.ofBits_bits, pattern]
  decide

/-! Rounding. -/

/-- `x` is the exact result `q`, rounded once. -/
def F64.isRounded (x : F64) (q : ℚ) : Prop :=
  ∃ neg n d, 0 < d ∧ x = roundRatio neg n d ∧ signOf neg * ((n : ℚ) / d) = q

/-- Rounding keeps what the format holds. -/
theorem F64.isRounded.hasValue (h : x.isRounded q) (exact : isExactMagnitude |q|) : x.hasValue q := by
  obtain ⟨neg, n, d, hd, rfl, rfl⟩ := h
  rw [abs_signOf_mul, abs_of_nonneg (by positivity)] at exact
  exact (roundRatio_represents neg n hd exact).hasValue

/-- Rounding moves a result of magnitude at most `2^k` by at most `2^(k - 52)`. -/
theorem F64.isRounded.near {k : Nat} (h : x.isRounded q) (hq : |q| ≤ 2 ^ k) (hk : k < 1023) :
    ∃ r, x.hasValue r ∧ |r - q| ≤ 2 ^ k / 2 ^ 52 := by
  obtain ⟨neg, n, d, hd, rfl, rfl⟩ := h
  rw [abs_signOf_mul, abs_of_nonneg (by positivity)] at hq
  rcases Nat.eq_zero_or_pos n with rfl | hn
  · refine ⟨_, (roundRatio_represents neg 0 hd ⟨0, 0, by simp⟩).hasValue, ?_⟩
    simp only [sub_self, abs_zero]
    positivity
  · have one_le : (1 : ℚ) ≤ 2 ^ k := one_le_pow₀ one_le_two
    have in_range : (2 : ℚ) ^ k < 2 ^ (1023 : Int) := by
      rw [← zpow_natCast]
      exact zpow_lt_zpow_right₀ one_lt_two (by omega)
    obtain ⟨m, e, rounded, canonical, close⟩ := roundRatio_near neg hn hd (hq.trans_lt in_range)
    refine ⟨_, ⟨neg, m, e, rounded, canonical, rfl⟩, ?_⟩
    rw [← mul_sub, abs_signOf_mul]
    refine close.trans ?_
    -- half a unit in the last place is no more than `2^(k - 52)`
    obtain ⟨-, -, -, normal | least⟩ := of_decide_eq_true canonical
    · have hm : (2 : ℚ) ^ 52 ≤ m := by exact_mod_cast normal
      have := mul_le_mul_of_nonneg_right hm (two_zpow_pos e).le
      have := (abs_le.mp close).2
      linarith
    · have : (2 : ℚ) ^ e ≤ 2 ^ (-52 : Int) := zpow_le_zpow_right₀ (by norm_num) (by omega)
      norm_num at this ⊢
      linarith

theorem roundScaled_isRounded (neg : Bool) (n : Nat) {d : Nat} (hd : 0 < d) (e : Int) :
    (roundScaled neg n d e).isRounded (signOf neg * ((n : ℚ) / d * 2 ^ e)) := by
  refine ⟨neg, n * 2 ^ e.toNat, d * 2 ^ (-e).toNat, by positivity, rfl, ?_⟩
  have scaled := scaled_quotient n d (-e)
  rw [neg_neg, zpow_neg, div_inv_eq_mul] at scaled
  rw [scaled]

/-! The operations. -/

theorem f64_hasValue {v : Int} {k : Nat} (hv : v.natAbs < 2 ^ 53) (hk : k ≤ 1074) : (f64 v k).hasValue (v / 2 ^ k) := by
  have value := (f64_represents hv hk).hasValue
  rwa [← mul_assoc, signOf_mul_natAbs, zpow_neg, zpow_natCast, ← div_eq_mul_inv] at value

theorem f64_int_hasValue {v : Int} (hv : v.natAbs < 2 ^ 53) : (f64 v 0).hasValue v := by
  simpa using f64_hasValue (k := 0) hv (by omega)

/-- R11: a conversion gives the positive zero. -/
theorem f64_ne_negZero {v : Int} {k : Nat} (hv : v.natAbs < 2 ^ 53) (hk : k ≤ 1074) : f64 v k ≠ negZero := by
  obtain ⟨m, e, form, -, value⟩ := f64_represents hv hk
  rw [form]
  intro isZero
  obtain ⟨negative, rfl, -⟩ : v < 0 ∧ m = 0 ∧ e = -1074 := by simpa [negZero] using isZero
  have positive : (0 : ℚ) < v.natAbs * 2 ^ (-(k : Int)) := by
    have : 0 < v.natAbs := by omega
    positivity
  rw [← value] at positive
  simp at positive

theorem fmul64_isRounded (hx : x.hasValue p) (hy : y.hasValue q) : (fmul64 x y).isRounded (p * q) := by
  obtain ⟨a, m₁, e₁, rfl, -, rfl⟩ := hx
  obtain ⟨b, m₂, e₂, rfl, -, rfl⟩ := hy
  have value : signOf a * (m₁ * 2 ^ e₁) * (signOf b * (m₂ * 2 ^ e₂)) =
      signOf (a ^^ b) * (((m₁ * m₂ : Nat) : ℚ) / (1 : Nat) * 2 ^ (e₁ + e₂)) := by
    rw [signOf_xor, zpow_add₀ two_ne_zero]
    push_cast
    ring
  rw [value]
  exact roundScaled_isRounded _ _ Nat.one_pos _

theorem fdiv64_isRounded (hx : x.hasValue p) (hy : y.hasValue q) (hq : q ≠ 0) : (fdiv64 x y).isRounded (p / q) := by
  obtain ⟨a, m₁, e₁, rfl, -, rfl⟩ := hx
  obtain ⟨b, m₂, e₂, rfl, -, rfl⟩ := hy
  have hm₂ : m₂ ≠ 0 := by
    rintro rfl
    simp at hq
  have value : signOf a * (m₁ * 2 ^ e₁) / (signOf b * (m₂ * 2 ^ e₂)) =
      signOf (a ^^ b) * ((m₁ : ℚ) / m₂ * 2 ^ (e₁ - e₂)) := by
    rw [signOf_xor, zpow_sub₀ two_ne_zero, mul_div_mul_comm, mul_div_mul_comm, signOf_div]
  rw [value]
  simp only [fdiv64, if_neg hm₂]
  exact roundScaled_isRounded _ _ (Nat.pos_of_ne_zero hm₂) _

/-- The exact sum, in the smaller of the two units. -/
theorem sumCode_mul (a b : Bool) (m₁ m₂ : Nat) (e₁ e₂ : Int) :
    (sumCode a m₁ e₁ b m₂ e₂ : ℚ) * 2 ^ min e₁ e₂ = signOf a * (m₁ * 2 ^ e₁) + signOf b * (m₂ * 2 ^ e₂) := by
  have shift : ∀ e : Int, min e₁ e₂ ≤ e → (2 : ℚ) ^ (e - min e₁ e₂).toNat * 2 ^ min e₁ e₂ = 2 ^ e := by
    intro e le
    rw [← zpow_natCast, Int.toNat_of_nonneg (by omega), ← zpow_add₀ two_ne_zero, sub_add_cancel]
  rw [sumCode, ← shift e₁ (min_le_left ..), ← shift e₂ (min_le_right ..)]
  simp only [signOf]
  push_cast
  ring

theorem fadd64_isRounded (hx : x.hasValue p) (hy : y.hasValue q) : (fadd64 x y).isRounded (p + q) := by
  obtain ⟨a, m₁, e₁, rfl, -, rfl⟩ := hx
  obtain ⟨b, m₂, e₂, rfl, -, rfl⟩ := hy
  rw [← sumCode_mul]
  simp only [fadd64]
  generalize sumCode a m₁ e₁ b m₂ e₂ = v
  by_cases zero : v = 0
  · exact ⟨a && b, 0, 1, Nat.one_pos, by simp [zero, roundRatio], by simp [zero]⟩
  · have rounded := roundScaled_isRounded (decide (v < 0)) v.natAbs Nat.one_pos (min e₁ e₂)
    rw [Nat.cast_one, div_one, ← mul_assoc, signOf_mul_natAbs] at rounded
    rwa [if_neg zero]

/-- R123, R129: an exact zero sum is the negative zero only of two negative zeros. -/
theorem fadd64_ne_negZero (hx : x.hasValue p) (hy : y.hasValue q) (sum : (fadd64 x y).hasValue (p + q))
    (h : x ≠ negZero ∨ y ≠ negZero) : fadd64 x y ≠ negZero := by
  by_cases zero : p + q = 0
  · obtain ⟨a, m₁, e₁, rfl, canonical₁, rfl⟩ := hx
    obtain ⟨b, m₂, e₂, rfl, canonical₂, rfl⟩ := hy
    have code : sumCode a m₁ e₁ b m₂ e₂ = 0 := by
      have scaled := sumCode_mul a b m₁ m₂ e₁ e₂
      rw [zero, mul_eq_zero_iff_right (two_zpow_pos _).ne'] at scaled
      exact_mod_cast scaled
    simp only [fadd64, code, if_true]
    intro negative
    obtain ⟨rfl, rfl⟩ : a = true ∧ b = true := by simpa [negZero] using negative
    have magnitude₁ : (0 : ℚ) ≤ m₁ * 2 ^ e₁ := by positivity
    have magnitude₂ : (0 : ℚ) ≤ m₂ * 2 ^ e₂ := by positivity
    simp only [signOf, if_true] at zero
    rcases h with h | h
    · exact h (eq_negZero_of_nonneg canonical₁ (by simp only [signOf, if_true]; linarith))
    · exact h (eq_negZero_of_nonneg canonical₂ (by simp only [signOf, if_true]; linarith))
  · exact sum.ne_negZero zero

end

end Sys2Proof.Machine
end

section
/-! PROOFS. The multiply-accumulator in integers and in binary64 (spec/41_compute_ops.md R121, R122). -/

namespace Sys2Proof.Machine

/-- R22 to R24: with two's complement every code is in range. -/
theorem inRange_off65536 (c : Coefs) : c.inRange .off65536 :=
  ⟨c.a0.le_toInt, c.b1.le_toInt, c.b2.le_toInt⟩

/-- Settles O14: the rational formula is the accumulator's term by term; the bounds and the 40 bits are `mac_bounds` and
`toInt_ofInt_mac`, for the widest range of codes where the statement asks no range. -/
theorem macComputesCompensatedValue : Obligations.MacComputesCompensatedValue := by
  unfold Obligations.MacComputesCompensatedValue
  intro c pr tr
  obtain ⟨least, greatest⟩ := mac_bounds (inRange_off65536 c) pr tr
  refine ⟨by unfold mac; norm_num, ?_, least, greatest, fun inRange => (mac_bounds inRange pr tr).1,
    toInt_ofInt_mac (inRange_off65536 c) pr tr⟩
  unfold mac
  push_cast
  ring

/-! Values with 22 fraction bits (R122). -/

/-- `x` is the fixed-point number of code `v`, exactly. -/
def F64.isCode (x : F64) (v : Int) : Prop :=
  x.hasValue (v / 2 ^ 22)

theorem isExactMagnitude_code {v : Int} (hv : v.natAbs < 2 ^ 53) :
    isExactMagnitude |(v : ℚ) / 2 ^ 22| := by
  refine ⟨v.natAbs, -22, hv, by omega, by omega, ?_⟩
  rw [abs_div, Nat.cast_natAbs, Int.cast_abs, abs_of_pos (show (0 : ℚ) < 2 ^ 22 by positivity)]
  norm_num [div_eq_mul_inv]

section
variable {x y z : F64} {u v w : Int}

theorem f64_isCode {k j : Nat} (hk : k + j = 22) (hv : v.natAbs < 2 ^ 53) : (f64 v k).isCode (v * 2 ^ j) := by
  have value := f64_hasValue (k := k) hv (by omega)
  rw [← mul_div_mul_right (v : ℚ) (2 ^ k) (pow_ne_zero j two_ne_zero), ← pow_add, hk] at value
  simpa [F64.isCode] using value

theorem fmul64_count_isCode (hx : x.isCode u) (n : BitVec 10) (hu : (u * n.toNat).natAbs < 2 ^ 53) :
    (fmul64 x (f64 n.toNat 0)).isCode (u * n.toNat) := by
  have count_lt := n.isLt
  have rounded := fmul64_isRounded hx (f64_int_hasValue (v := n.toNat) (by omega))
  rw [div_mul_eq_mul_div, ← Int.cast_mul] at rounded
  exact rounded.hasValue (isExactMagnitude_code hu)

theorem fadd64_isCode (hx : x.isCode u) (hy : y.isCode v) (hv : (u + v).natAbs < 2 ^ 53) :
    (fadd64 x y).isCode (u + v) := by
  have rounded := fadd64_isRounded hx hy
  rw [← add_div, ← Int.cast_add] at rounded
  exact rounded.hasValue (isExactMagnitude_code hv)

/-- A sum of two codes is the converted sum, unless both addends are the negative zero. -/
theorem fadd64_eq_f64 (hx : x.isCode u) (hy : y.isCode v) (hv : (u + v).natAbs < 2 ^ 53)
    (h : x ≠ negZero ∨ y ≠ negZero) : fadd64 x y = f64 (u + v) 22 := by
  have sum := fadd64_isCode hx hy hv
  refine sum.eq (f64_hasValue hv (by omega)) (fadd64_ne_negZero hx hy ?_ h) (f64_ne_negZero hv (by omega))
  rw [← add_div, ← Int.cast_add]
  exact sum

theorem sumCode_comm (a b : Bool) (m₁ m₂ : Nat) (e₁ e₂ : Int) : sumCode a m₁ e₁ b m₂ e₂ = sumCode b m₂ e₂ a m₁ e₁ := by
  simp only [sumCode]
  rw [min_comm e₁ e₂, add_comm]

theorem fadd64_comm (x y : F64) : fadd64 x y = fadd64 y x := by
  cases x <;> cases y
  case fin.fin a m₁ e₁ b m₂ e₂ =>
    simp only [fadd64]
    rw [sumCode_comm, min_comm, Bool.and_comm]
  case inf.inf a b => cases a <;> cases b <;> rfl
  all_goals rfl

/-- R122: three codes, not all of them the negative zero, have one sum in any order and grouping. -/
theorem fadd64_three_codes (hx : x.isCode u) (hy : y.isCode v) (hz : z.isCode w)
    (hv : u.natAbs + v.natAbs + w.natAbs < 2 ^ 53) (h : (x ≠ negZero ∨ y ≠ negZero) ∨ z ≠ negZero) :
    fadd64 (fadd64 x y) z = f64 (u + v + w) 22 ∧ fadd64 (fadd64 y x) z = f64 (u + v + w) 22 ∧
      fadd64 z (fadd64 x y) = f64 (u + v + w) 22 ∧ fadd64 z (fadd64 y x) = f64 (u + v + w) 22 := by
  have sum := fadd64_isCode hx hy (by omega)
  have sums : fadd64 (fadd64 x y) z = f64 (u + v + w) 22 := by
    refine fadd64_eq_f64 sum hz (by omega) (h.imp_left fun h => ?_)
    rw [fadd64_eq_f64 hx hy (by omega) h]
    exact f64_ne_negZero (by omega) (by omega)
  rw [fadd64_comm z, fadd64_comm z, fadd64_comm y x]
  exact ⟨sums, sums, sums, sums⟩

theorem F64.isCode.units (hx : x.isCode v) : x.units = v * 2 ^ 1052 :=
  F64.hasValue.units_code (k := 22) (by omega) hx

theorem F64.isCode.intermediate (hx : x.isCode v) (low : -2 ^ 36 < v) (high : v < 2 ^ 36) :
    x.isFinite = true ∧ ∃ v : Int, x.units = v * 2 ^ 1052 ∧ -(2 ^ 36) < v ∧ v < 2 ^ 36 :=
  ⟨F64.hasValue.isFinite hx, v, hx.units, low, high⟩

end

/-- Settles O15: every intermediate value is a code (`F64.isCode`), and an addition of codes one of which is not the
negative zero is the conversion of their sum. -/
theorem binary64FormulaEqualsMac : Obligations.Binary64FormulaEqualsMac := by
  unfold Obligations.Binary64FormulaEqualsMac
  intro c pr tr a0 b1 b2 c12 nPr nTr t1 t2 t3 t4 t5 t6
  -- the codes of the terms, and their ranges
  have a0_ge := c.a0.le_toInt
  have a0_lt := c.a0.toInt_lt
  have b1_ge := c.b1.le_toInt
  have b1_lt := c.b1.toInt_lt
  have b2_ge := c.b2.le_toInt
  have b2_lt := c.b2.toInt_lt
  have c12_ge := c.c12.le_toInt
  have c12_lt := c.c12.toInt_lt
  have u1_range := mul_count_bounds (lo := -8192) (hi := 8192) c12_ge c12_lt.le (by omega) (by omega) tr
  have u3_range := mul_count_bounds (lo := -25165824) (hi := 25165824)
    (v := c.b1.toInt * 2 ^ 9 + c.c12.toInt * tr.toNat) (by omega) (by omega) (by omega) (by omega) pr
  have u5_range := mul_count_bounds (lo := -8388608) (hi := 8388608) (v := c.b2.toInt * 2 ^ 8) (by omega) (by omega)
    (by omega) (by omega) tr
  have a0_code : a0.isCode (c.a0.toInt * 2 ^ 19) := f64_isCode (by omega) (by omega)
  have b1_code : b1.isCode (c.b1.toInt * 2 ^ 9) := f64_isCode (by omega) (by omega)
  have b2_code : b2.isCode (c.b2.toInt * 2 ^ 8) := f64_isCode (by omega) (by omega)
  have c12_code : c12.isCode c.c12.toInt := f64_hasValue (by omega) (by omega)
  have a0_ne : a0 ≠ negZero := f64_ne_negZero (by omega) (by omega)
  have b1_ne : b1 ≠ negZero := f64_ne_negZero (by omega) (by omega)
  -- the intermediate values
  have t1_code : t1.isCode (c.c12.toInt * tr.toNat) := fmul64_count_isCode c12_code tr (by omega)
  have t2_eq : t2 = f64 (c.b1.toInt * 2 ^ 9 + c.c12.toInt * tr.toNat) 22 :=
    fadd64_eq_f64 b1_code t1_code (by omega) (.inl b1_ne)
  have t2_code := fadd64_isCode b1_code t1_code (by omega)
  have t3_code : t3.isCode ((c.b1.toInt * 2 ^ 9 + c.c12.toInt * tr.toNat) * pr.toNat) :=
    fmul64_count_isCode t2_code pr (by omega)
  have t4_code : t4.isCode _ := fadd64_isCode t3_code a0_code (by omega)
  have t5_code : t5.isCode (c.b2.toInt * 2 ^ 8 * tr.toNat) := fmul64_count_isCode b2_code tr (by omega)
  have t6_code : t6.isCode _ := fadd64_isCode t4_code t5_code (by omega)
  have mac_eq : mac c pr tr = (c.b1.toInt * 2 ^ 9 + c.c12.toInt * tr.toNat) * pr.toNat + c.a0.toInt * 2 ^ 19 +
      c.b2.toInt * 2 ^ 8 * tr.toNat := by
    unfold mac
    ring
  have orders := fadd64_three_codes t3_code a0_code t5_code (by omega) (.inl (.inr a0_ne))
  have orders' := fadd64_three_codes t3_code t5_code a0_code (by omega) (.inr a0_ne)
  have orders'' := fadd64_three_codes a0_code t5_code t3_code (by omega) (.inl (.inl a0_ne))
  have t6_eq : t6 = f64 (mac c pr tr) 22 := mac_eq ▸ orders.1
  refine ⟨t6_eq, mac_eq ▸ t6_code.units, ?_, ?_, ?_⟩
  · simp only [List.forall_mem_cons]
    exact ⟨t1_code.intermediate (by omega) (by omega), t2_code.intermediate (by omega) (by omega),
      t3_code.intermediate (by omega) (by omega), t4_code.intermediate (by omega) (by omega),
      t5_code.intermediate (by omega) (by omega), t6_code.intermediate (by omega) (by omega), List.forall_mem_nil _⟩
  · exact fadd64_comm t1 b1
  · simp only [List.forall_mem_cons]
    rw [t6_eq, mac_eq]
    refine ⟨orders, ?_, ?_, List.forall_mem_nil _⟩
    · rwa [add_right_comm] at orders'
    · rwa [add_comm, ← add_assoc] at orders''

end Sys2Proof.Machine
end

section
/-! PROOFS. The output stages: how near each is to its formula on exact rationals, and what follows of its range, its
order and its zeros (spec/41_compute_ops.md R123, R125, R126, R129). -/

namespace Sys2Proof.Machine

/-! The pressure stage (R123). -/

/-- R123 on exact rationals. -/
def exactPressure (m : Int) : ℚ :=
  m / 2 ^ 22 * (65 / 1023) + 50

/-- The multiply-accumulator's values (R121). -/
def isAccumulator (m : Int) : Prop :=
  -51497672704 ≤ m ∧ m ≤ 51495316223

theorem isAccumulator_mac (c : Coefs) (pr tr : BitVec 10) : isAccumulator (mac c pr tr) :=
  mac_bounds (inRange_off65536 c) pr tr

theorem isAccumulator.bounds {m : Int} (range : isAccumulator m) : (-51497672704 : ℚ) ≤ m ∧ (m : ℚ) ≤ 51495316223 := by
  unfold isAccumulator at range
  exact_mod_cast range

theorem kP_hasValue : kP.hasValue (0x10441104411044 / 2 ^ 56) :=
  ⟨false, 0x10441104411044, -56, by decide, by decide, by norm_num [signOf]⟩

section
variable {m : Int} (range : isAccumulator m)
include range

theorem f64_accumulator_hasValue : (f64 m 22).hasValue (m / 2 ^ 22) := by
  obtain ⟨least, greatest⟩ := range
  exact f64_hasValue (by omega) (by omega)

/-- The product with KP is within 2^-41 of the exact one: KP's own rounding, scaled by less than 2^14, and the
product's. -/
theorem pressureProduct_near :
    ∃ r, (fmul64 (f64 m 22) kP).hasValue r ∧ |r - m / 2 ^ 22 * (65 / 1023)| ≤ 1 / 2 ^ 41 := by
  obtain ⟨least, greatest⟩ := range.bounds
  have rounded := fmul64_isRounded (f64_accumulator_hasValue range) kP_hasValue
  obtain ⟨r, value, close⟩ := rounded.near (k := 10) (abs_le.mpr ⟨by linarith, by linarith⟩) (by omega)
  obtain ⟨low, high⟩ := abs_le.mp close
  exact ⟨r, value, abs_le.mpr ⟨by linarith, by linarith⟩⟩

theorem pressureF64_near : ∃ r, (pressureF64 m).hasValue r ∧ |r - exactPressure m| ≤ 1 / 2 ^ 40 := by
  obtain ⟨least, greatest⟩ := range.bounds
  obtain ⟨p, product, close⟩ := pressureProduct_near range
  obtain ⟨low, high⟩ := abs_le.mp close
  have rounded := fadd64_isRounded product (f64_int_hasValue (v := 50) (by omega))
  rw [Int.cast_ofNat] at rounded
  obtain ⟨r, value, close⟩ := rounded.near (k := 10) (abs_le.mpr ⟨by linarith, by linarith⟩) (by omega)
  obtain ⟨low', high'⟩ := abs_le.mp close
  exact ⟨r, value, by unfold exactPressure; exact abs_le.mpr ⟨by linarith, by linarith⟩⟩

/-- No accumulator value is at the formula's zero: 65 does not divide 50 * 1023 * 2^22, so the exact pressure is at
least one part in 1023 * 2^22 away from 0. -/
theorem pressureF64_far_from_zero : ∃ r, (pressureF64 m).hasValue r ∧ 1 / 2 ^ 33 ≤ |r| := by
  obtain ⟨r, value, close⟩ := pressureF64_near range
  obtain ⟨low, high⟩ := abs_le.mp close
  refine ⟨r, value, ?_⟩
  unfold exactPressure at low high
  have side : 65 * m + 214538649600 ≤ -1 ∨ 1 ≤ 65 * m + 214538649600 := by omega
  rcases side with below | above
  · have : (65 * m + 214538649600 : ℚ) ≤ -1 := by exact_mod_cast below
    exact le_abs.mpr (.inr (by linarith))
  · have : (1 : ℚ) ≤ 65 * m + 214538649600 := by exact_mod_cast above
    exact le_abs.mpr (.inl (by linarith))

end

/-- Settles O16: the two roundings leave the exact pressure's range a margin (`pressureF64_near`), and the pressure is
never a zero (`pressureF64_far_from_zero`). -/
theorem pressureStageInRange : Obligations.PressureStageInRange := by
  unfold Obligations.PressureStageInRange
  refine ⟨by decide, fun c pr tr => ?_⟩
  have range := isAccumulator_mac c pr tr
  obtain ⟨least, greatest⟩ := range.bounds
  obtain ⟨r, value, close⟩ := pressureF64_near range
  obtain ⟨low, high⟩ := abs_le.mp close
  unfold exactPressure at low high
  obtain ⟨r', value', far⟩ := pressureF64_far_from_zero range
  have nonzero : r' ≠ 0 := abs_pos.mp (lt_of_lt_of_le (by norm_num) far)
  intro m p
  exact ⟨rfl, F64.isCode.units (f64_accumulator_hasValue range), value.isFinite, value'.bits_ne_negZero nonzero,
    value.le_mul_units (by push_cast; linarith), value.mul_units_le (by push_cast; linarith)⟩

/-- Settles O17: one unit of the accumulator is 2^-26 of pressure, far more than the roundings (`pressureF64_near`). -/
theorem pressureStageIsMonotone : Obligations.PressureStageIsMonotone := by
  unfold Obligations.PressureStageIsMonotone
  intro m n least le greatest
  rcases le.eq_or_lt with rfl | lt
  · exact le_rfl
  · obtain ⟨p, valueM, closeM⟩ := pressureF64_near (m := m) ⟨least, by omega⟩
    obtain ⟨q, valueN, closeN⟩ := pressureF64_near (m := n) ⟨by omega, greatest⟩
    rw [valueM.units_le valueN]
    obtain ⟨-, high⟩ := abs_le.mp closeM
    obtain ⟨low, -⟩ := abs_le.mp closeN
    unfold exactPressure at low high
    have step : (m + 1 : ℚ) ≤ n := by exact_mod_cast lt
    linarith

/-! The temperature stage (R125). -/

/-- R125's quotient on exact rationals. -/
def exactQuotient (tr : BitVec 10) : ℚ :=
  (tr.toNat - 498) / (-535 / 100)

theorem count_bounds (tr : BitVec 10) : (0 : ℚ) ≤ tr.toNat ∧ (tr.toNat : ℚ) ≤ 1023 :=
  ⟨by positivity, by exact_mod_cast Nat.le_of_lt_succ tr.isLt⟩

theorem kT_hasValue : kT.hasValue (-(0x15666666666666 / 2 ^ 50)) :=
  ⟨true, 0x15666666666666, -50, by decide, by decide, by norm_num [signOf]⟩

section
variable (tr : BitVec 10)

theorem temperatureQuotient_near :
    ∃ r, (fdiv64 (f64 ((tr.toNat : Int) - 498) 0) kT).hasValue r ∧ |r - exactQuotient tr| ≤ 1 / 2 ^ 44 := by
  obtain ⟨nonneg, le⟩ := count_bounds tr
  have count_lt := tr.isLt
  have difference := f64_int_hasValue (v := (tr.toNat : Int) - 498) (by omega)
  have rounded := fdiv64_isRounded difference kT_hasValue (by norm_num)
  push_cast at rounded
  obtain ⟨r, value, close⟩ := rounded.near (k := 7) (abs_le.mpr ⟨by linarith, by linarith⟩) (by omega)
  obtain ⟨low, high⟩ := abs_le.mp close
  exact ⟨r, value, by unfold exactQuotient; exact abs_le.mpr ⟨by linarith, by linarith⟩⟩

theorem temperatureF64_near : ∃ r, (temperatureF64 tr).hasValue r ∧ |r - (exactQuotient tr + 25)| ≤ 1 / 2 ^ 43 := by
  obtain ⟨nonneg, le⟩ := count_bounds tr
  obtain ⟨p, quotient, close⟩ := temperatureQuotient_near tr
  obtain ⟨low, high⟩ := abs_le.mp close
  unfold exactQuotient at low high
  have rounded := fadd64_isRounded quotient (f64_int_hasValue (v := 25) (by omega))
  rw [Int.cast_ofNat] at rounded
  obtain ⟨r, value, close⟩ := rounded.near (k := 7) (abs_le.mpr ⟨by linarith, by linarith⟩) (by omega)
  obtain ⟨low', high'⟩ := abs_le.mp close
  exact ⟨r, value, by unfold exactQuotient; exact abs_le.mpr ⟨by linarith, by linarith⟩⟩

/-- No count is at the formula's zero, Tr = 631.75. -/
theorem temperatureF64_far_from_zero : ∃ r, (temperatureF64 tr).hasValue r ∧ 1 / 2 ^ 5 ≤ |r| := by
  obtain ⟨r, value, close⟩ := temperatureF64_near tr
  obtain ⟨low, high⟩ := abs_le.mp close
  refine ⟨r, value, ?_⟩
  unfold exactQuotient at low high
  rcases Nat.lt_or_ge 631 tr.toNat with above | below
  · have : (632 : ℚ) ≤ tr.toNat := by exact_mod_cast above
    exact le_abs.mpr (.inr (by linarith))
  · have : (tr.toNat : ℚ) ≤ 631 := by exact_mod_cast below
    exact le_abs.mpr (.inl (by linarith))

end

/-- Settles O19: KT is computed; `Tr - 498` is an integer of 10 bits. -/
theorem temperatureStageFormula : Obligations.TemperatureStageFormula := by
  unfold Obligations.TemperatureStageFormula
  refine ⟨by decide, fun tr => ⟨?_, rfl⟩⟩
  have := tr.isLt
  exact f64_units (k := 0) (by omega) (by omega)

/-- R126: a count more is 1/5.35 of temperature less, far more than the roundings. -/
theorem temperatureF64_units_lt {t u : BitVec 10} (lt : t.toNat < u.toNat) :
    (temperatureF64 u).units < (temperatureF64 t).units := by
  obtain ⟨p, valueT, closeT⟩ := temperatureF64_near t
  obtain ⟨q, valueU, closeU⟩ := temperatureF64_near u
  rw [valueU.units_lt valueT]
  obtain ⟨low, -⟩ := abs_le.mp closeT
  obtain ⟨-, high⟩ := abs_le.mp closeU
  unfold exactQuotient at low high
  have step : (t.toNat + 1 : ℚ) ≤ u.toNat := by exact_mod_cast lt
  linarith

/-- Settles O20: the order is `temperatureF64_units_lt`, the patterns are computed, and the temperature is never a zero
(`temperatureF64_far_from_zero`). -/
theorem temperatureFallsStrictly : Obligations.TemperatureFallsStrictly := by
  unfold Obligations.TemperatureFallsStrictly
  refine ⟨fun t u => temperatureF64_units_lt, by decide, by decide, by decide +kernel, by decide, fun t => ?_⟩
  obtain ⟨r, value, far⟩ := temperatureF64_far_from_zero t
  have nonzero : r ≠ 0 := abs_pos.mp (lt_of_lt_of_le (by norm_num) far)
  exact ⟨value.bits_ne_negZero nonzero, value.isFinite⟩

/-- Settles O23: a nonzero operand is at least one unit of its scale, a nonzero product or quotient is near that unit's
(`pressureProduct_near`, `temperatureQuotient_near`), and no sum is near 0. -/
theorem noSubnormalArises : Obligations.NoSubnormalArises := by
  unfold Obligations.NoSubnormalArises
  refine ⟨fun m least greatest => ?_, fun tr => ?_⟩
  · have range : isAccumulator m := ⟨least, greatest⟩
    refine ⟨fun nonzero => ?_, fun _ => ?_⟩
    · have unit : (m : ℚ) ≤ -1 ∨ (1 : ℚ) ≤ m := by
        have : m ≤ -1 ∨ 1 ≤ m := by omega
        exact_mod_cast this
      obtain ⟨r, value, close⟩ := pressureProduct_near range
      obtain ⟨low, high⟩ := abs_le.mp close
      have converted := f64_accumulator_hasValue range
      rcases unit with below | above
      · exact ⟨converted.two_pow_le_abs_units (b := 22) (by norm_num) (le_abs.mpr (.inr (by linarith))),
          value.two_pow_le_abs_units (b := 26) (by norm_num) (le_abs.mpr (.inr (by linarith)))⟩
      · exact ⟨converted.two_pow_le_abs_units (b := 22) (by norm_num) (le_abs.mpr (.inl (by linarith))),
          value.two_pow_le_abs_units (b := 26) (by norm_num) (le_abs.mpr (.inl (by linarith)))⟩
    · obtain ⟨r, value, far⟩ := pressureF64_far_from_zero range
      exact value.two_pow_le_abs_units (b := 49) (by norm_num) (le_trans (by norm_num) far)
  · refine ⟨fun nonzero => ?_, fun _ => ?_⟩
    · obtain ⟨r, value, close⟩ := temperatureQuotient_near tr
      obtain ⟨low, high⟩ := abs_le.mp close
      unfold exactQuotient at low high
      refine value.lt_mul_abs_units ?_
      rcases Nat.lt_or_gt_of_ne nonzero with below | above
      · have : (tr.toNat + 1 : ℚ) ≤ 498 := by exact_mod_cast below
        have := le_abs_self r
        push_cast
        linarith
      · have : (498 + 1 : ℚ) ≤ tr.toNat := by exact_mod_cast above
        have := neg_le_abs r
        push_cast
        linarith
    · obtain ⟨r, value, far⟩ := temperatureF64_far_from_zero tr
      exact value.two_pow_le_abs_units (b := 49) (by norm_num) (le_trans (by norm_num) far)

end Sys2Proof.Machine
end

section
/-! PROOFS. The compute operations COMPP and COMPT (spec/41_compute_ops.md R124, R127, R128, R130). -/

namespace Sys2Proof.Machine

/-- An operation faults with the code of its first precondition that does not hold (R173). -/
theorem exec_faulted {i : Instr} {s : State} {e : Code} (code : readiness i s = e) (fault : e ≠ .ok) :
    exec i s = .next (faulted e s) := by
  subst code
  exact exec_of_not_ready fault

/-- R124: an accumulator of 0 is a pressure of exactly 50.0. -/
theorem pressureF64_zero_bits : (pressureF64 0).bits = 0x4049000000000000#64 := by
  decide +kernel

/-- Settles O18: with the inputs there it is `exec_compp`, whose 40 bits hold the accumulator (`toInt_ofInt_mac`), and
without them, or again, `exec_faulted`; O5 is the frame's fault. -/
theorem comppCompensatesPressure : Obligations.ComppCompensatesPressure := by
  unfold Obligations.ComppCompensatesPressure
  obtain ⟨wrongLength, -⟩ := wrongPayloadLengthFaults
  refine ⟨fun s c pr tr coef rawT rawP => ?_, fun s coef => exec_faulted (by simp [readiness, coef]) (by decide),
    fun s coef rawT => exec_faulted (by simp [readiness, coef, rawT]) (by decide),
    fun s coef rawT rawP => exec_faulted (by simp [readiness, coef, rawT, rawP]) (by decide),
    fun s f ms port op payload => wrongLength s f ms port (.inr <| .inr ⟨by simp [op], by simpa using payload⟩),
    fun s ms port => step_encode (i := .compp) port, ?_, ⟨_, exec_compp rfl rfl rfl, by decide, by decide⟩⟩
  · have code := toInt_ofInt_mac (inRange_off65536 c) pr tr
    refine ⟨BitVec.ofInt 40 (mac c pr tr), pressureOut s.params.outArith (mac c pr tr) tr, exec_compp coef rawP rawT,
      code, fun binary64 => ?_, fun binary64 a0 b1 b2 c12 => ?_, exec_faulted (by simp [readiness, coef]) (by decide)⟩
    · rw [code, binary64]
      rfl
    · have zero : mac c pr tr = 0 := by simp [mac, a0, b1, b2, c12]
      rw [zero, binary64]
      exact ⟨rfl, pressureF64_zero_bits⟩
  · rintro s t t' u u' a b c d ⟨⟩ ⟨⟩ ⟨⟩ ⟨⟩
    rfl

/-- Settles O24: with the inputs there it is `exec_compt`; without them, and after a COMPP, which takes the count,
`exec_faulted`; the order of the results is `temperatureF64_units_lt`; O5 is the frame's fault. -/
theorem comptComputesTemperature : Obligations.ComptComputesTemperature := by
  unfold Obligations.ComptComputesTemperature
  obtain ⟨wrongLength, -⟩ := wrongPayloadLengthFaults
  obtain ⟨-, at0, at1023, at498, -⟩ := temperatureFallsStrictly
  refine ⟨fun s tr coef rawT => ?_, fun tr => ⟨?_, ?_⟩,
    fun s coef => exec_faulted (by simp [readiness, coef]) (by decide),
    fun s coef rawT => exec_faulted (by simp [readiness, coef, rawT]) (by decide),
    fun s f ms port op payload => wrongLength s f ms port (.inr <| .inr ⟨by simp [op], by simpa using payload⟩),
    fun s ms port => step_encode (i := .compt) port, fun s t coef rawT rawP ht => ?_,
    ⟨_, exec_compt rfl rfl, by decide⟩⟩
  · obtain ⟨c, coef⟩ := Option.ne_none_iff_exists'.mp coef
    refine ⟨temperatureOut s.params.outArith tr, exec_compt coef rawT, fun binary64 => ?_⟩
    rw [binary64]
    exact ⟨rfl, fun h => h ▸ at498, fun h => h ▸ at0, fun h => h ▸ at1023⟩
  · rcases (Nat.le_of_lt_succ tr.isLt).eq_or_lt with eq | lt
    · rw [show tr = 1023#10 from BitVec.eq_of_toNat_eq eq]
    · exact (temperatureF64_units_lt lt).le
  · rcases tr.toNat.eq_zero_or_pos with eq | lt
    · rw [show tr = 0#10 from BitVec.eq_of_toNat_eq eq]
    · exact (temperatureF64_units_lt (t := 0#10) lt).le
  · obtain ⟨c, coef⟩ := Option.ne_none_iff_exists'.mp coef
    obtain ⟨tr, rawT⟩ := Option.ne_none_iff_exists'.mp rawT
    obtain ⟨pr, rawP⟩ := Option.ne_none_iff_exists'.mp rawP
    cases (exec_compp coef rawP rawT).symm.trans ht
    exact exec_faulted (by simp [readiness, coef]) (by decide)

/-- R127: a binary64 output is the pattern of a finite value. -/
theorem F64.hasValue.isFinite_ofBits {x : F64} {q : ℚ} (h : x.hasValue q) : (F64.ofBits x.bits).isFinite = true := by
  rw [h.ofBits_bits]
  exact h.isFinite

/-- Settles O21: `exec_compp` and `exec_compt` give the outputs as functions of the inputs, and each stage's result is
finite (`pressureF64_near`, `temperatureF64_near`). -/
theorem outputsDeterministicAndFinite : Obligations.OutputsDeterministicAndFinite := by
  unfold Obligations.OutputsDeterministicAndFinite
  intro s t c pr tr params coefS coefT rawTS rawTT
  refine ⟨fun rawPS rawPT => ⟨_, _, exec_compp coefS rawPS rawTS, exec_compp coefT rawPT rawTT, rfl, ?_, ?_⟩,
    _, _, exec_compt coefS rawTS, exec_compt coefT rawTT, ?_, ?_⟩
  · simp [params]
  · intro binary64
    obtain ⟨r, value, -⟩ := pressureF64_near (isAccumulator_mac c pr tr)
    exact ⟨_, by simp [binary64, pressureOut], value.isFinite_ofBits⟩
  · simp [params]
  · intro binary64
    obtain ⟨r, value, -⟩ := temperatureF64_near tr
    exact ⟨_, by simp [binary64, temperatureOut], value.isFinite_ofBits⟩

/-- Settles O22: the outputs as `exec_compp` and `exec_compt` give them; the arithmetic is no precondition of COMPP,
whose fault keeps `PCOMP`, and no input of the accumulator. -/
theorem opaqueArithmeticDependsOnInputsOnly : Obligations.OpaqueArithmeticDependsOnInputsOnly := by
  unfold Obligations.OpaqueArithmeticDependsOnInputsOnly
  refine ⟨fun s t s' t' c d pr qr tr opaqueS opaqueT coefS coefT rawPS rawPT rawTS rawTT same hs ht => ?_,
    fun s t s' t' tr opaqueS opaqueT coefS coefT rawTS rawTT hs ht => ?_, fun s s' t' a hs ht => ?_⟩
  · cases (exec_compp coefS rawPS rawTS).symm.trans hs
    cases (exec_compp coefT rawPT rawTT).symm.trans ht
    simp [opaqueS, opaqueT, same]
  · obtain ⟨c, coefS⟩ := Option.ne_none_iff_exists'.mp coefS
    obtain ⟨d, coefT⟩ := Option.ne_none_iff_exists'.mp coefT
    cases (exec_compt coefS rawTS).symm.trans hs
    cases (exec_compt coefT rawTT).symm.trans ht
    simp [opaqueS, opaqueT]
  · by_cases ready : readiness .compp s = .ok
    · obtain ⟨c, pr, tr, coef, rawP, rawT⟩ := readiness_compp_ok.mp ready
      cases (exec_compp coef rawP rawT).symm.trans hs
      cases (exec_compp (s := { s with params := { s.params with outArith := a } }) coef rawP rawT).symm.trans ht
      rfl
    · cases (exec_of_not_ready ready).symm.trans hs
      cases (exec_of_not_ready (s := { s with params := { s.params with outArith := a } }) ready).symm.trans ht
      rfl

end Sys2Proof.Machine
end

section
/-! PROOFS. The control and read operations INVCOEF and RD (spec/42_control_ops.md R150, R152). -/

namespace Sys2Proof.Machine

/-! RD of any register of the index space (R34). -/

/-- The RD row of an index answers the register with that index (R152). -/
theorem exec_of_rdOfIndex {r : BitVec 4} {i : Instr} (row : rdOfIndex r = some i) (s : State) :
    exec i s = answer (register r s) s := by
  unfold rdOfIndex at row
  split at row <;> rename_i index <;> cases row <;> (rw [register, index]; rfl)

theorem exec_rd_of_value {r : BitVec 4} {i : Instr} {s : State} {v : RdValue} (row : rdOfIndex r = some i)
    (value : register r s = some v) :
    exec i s = .next { s with responses := s.responses ++ [⟨.ok, some v⟩] } := by
  rw [exec_of_rdOfIndex row, value, answer_some]

theorem exec_rd_of_no_value {r : BitVec 4} {i : Instr} {s : State} (row : rdOfIndex r = some i)
    (noValue : register r s = none) :
    exec i s = .next (faulted .noData s) := by
  rw [exec_of_rdOfIndex row, noValue, answer_none]

/-- R152: without a coefficient set none of the four coefficient registers holds a value. -/
theorem coefficient_reads_fault {s : State} (coef : s.coef = none) :
    ∀ i ∈ [Instr.rdA0, .rdB1, .rdB2, .rdC12], exec i s = .next (faulted .noData s) := by
  simp only [List.forall_mem_cons]
  exact ⟨exec_rd_of_no_value (r := 1#4) rfl (by simp [coef]), exec_rd_of_no_value (r := 2#4) rfl (by simp [coef]),
    exec_rd_of_no_value (r := 3#4) rfl (by simp [coef]), exec_rd_of_no_value (r := 4#4) rfl (by simp [coef]), by simp⟩

/-! A register's bits as the code modulo a power of two (R10, R34). -/

theorem toNat_eq_toInt_emod {w : Nat} (x : BitVec w) : (x.toNat : Int) = x.toInt % 2 ^ w := by
  have modulus : (2 : Int) ^ w = (2 ^ w : Nat) := by simp
  rw [modulus, BitVec.toInt_eq_toNat_bmod, Int.bmod_emod]
  exact_mod_cast (Nat.mod_eq_of_lt x.isLt).symm

/-- R152: sign extension changes the width of `C12` and not its code. -/
theorem toNat_signExtend_eq_toInt_emod {w v : Nat} (x : BitVec w) (le : w ≤ v) :
    ((x.signExtend v).toNat : Int) = x.toInt % 2 ^ v := by
  rw [toNat_eq_toInt_emod, BitVec.toInt_signExtend_of_le le]

/-- Settles O27: the reads answer the registers 1 to 4, and `toNat_eq_toInt_emod` says what their bits are. -/
theorem rdCoefficientsAnswer : Obligations.RdCoefficientsAnswer := by
  unfold Obligations.RdCoefficientsAnswer
  refine ⟨fun s c coef => ⟨c.a0, c.b1, c.b2, c.c12.signExtend 16, ?_⟩, fun s => coefficient_reads_fault⟩
  exact ⟨exec_rd_of_value (r := 1#4) rfl (by simp [coef]), exec_rd_of_value (r := 2#4) rfl (by simp [coef]),
    exec_rd_of_value (r := 3#4) rfl (by simp [coef]), exec_rd_of_value (r := 4#4) rfl (by simp [coef]),
    toNat_eq_toInt_emod c.a0, toNat_eq_toInt_emod c.b1, toNat_eq_toInt_emod c.b2,
    toNat_signExtend_eq_toInt_emod c.c12 (by decide)⟩

/-- Settles O28: the reads answer the registers 5 and 6, whose zero extension to 16 bits keeps the number. -/
theorem rdRawLatchesAnswer : Obligations.RdRawLatchesAnswer := by
  unfold Obligations.RdRawLatchesAnswer
  have zeroExtended : ∀ v : BitVec 10, (v.setWidth 16).toNat = v.toNat := fun v =>
    BitVec.toNat_setWidth_of_le (by decide)
  exact ⟨fun s v rawP => ⟨v.setWidth 16, zeroExtended v, exec_rd_of_value (r := 5#4) rfl (by simp [rawP])⟩,
    fun s v rawT => ⟨v.setWidth 16, zeroExtended v, exec_rd_of_value (r := 6#4) rfl (by simp [rawT])⟩,
    fun s rawP => exec_rd_of_no_value (r := 5#4) rfl (by simp [rawP]),
    fun s rawT => exec_rd_of_no_value (r := 6#4) rfl (by simp [rawT])⟩

/-- Settles O29: the reads answer the registers 7 to 9 whole; for `PCOMP`, `toNat_eq_toInt_emod`. -/
theorem rdResultsAnswer : Obligations.RdResultsAnswer := by
  unfold Obligations.RdResultsAnswer
  exact ⟨fun s v pcomp => ⟨v, toNat_eq_toInt_emod v, exec_rd_of_value (r := 7#4) rfl (by simp [pcomp])⟩,
    fun s v presOut => exec_rd_of_value (r := 8#4) rfl (by simp [presOut]),
    fun s v tempOut => exec_rd_of_value (r := 9#4) rfl (by simp [tempOut]),
    fun s pcomp => exec_rd_of_no_value (r := 7#4) rfl (by simp [pcomp]),
    fun s presOut => exec_rd_of_no_value (r := 8#4) rfl (by simp [presOut]),
    fun s tempOut => exec_rd_of_no_value (r := 9#4) rfl (by simp [tempOut])⟩

/-- Settles O26: register 0 holds a value in every state (R34), all of whose fields are 0 after reset. -/
theorem rdStatusAlwaysAnswers : Obligations.RdStatusAlwaysAnswers := by
  unfold Obligations.RdStatusAlwaysAnswers
  have statusAfterReset : status State.reset = 0x0000#16 := by decide
  exact ⟨fun s => exec_rd_of_value (r := 0#4) rfl (register_0 s),
    exec_rd_of_value (r := 0#4) rfl (by rw [← statusAfterReset, register_0])⟩

/-! A loaded coefficient read back (R101, R152). -/

/-- The high bit of a word is that of its first byte (R52). -/
theorem high_byte_iff (m l : Byte) : 32768 ≤ m.toNat * 256 + l.toNat ↔ 0x80#8 ≤ m := by
  have := l.isLt
  rw [BitVec.le_def, BitVec.toNat_ofNat]
  omega

/-- At `NEG_OFFSET` 65535 a decoded word with bit 15 set is the word less 65535, which is 1 more modulo `2^16`. -/
theorem ofInt_dec_off65535 (m l : Byte) :
    BitVec.ofInt 16 (dec .off65535 m l) = if 0x80#8 ≤ m then m ++ l + 1#16 else m ++ l := by
  have word : BitVec.ofInt 16 ((m.toNat * 256 + l.toNat : Nat) : Int) = m ++ l := by
    rw [← wordOf_toNat, BitVec.ofInt_natCast, BitVec.ofNat_toNat, BitVec.setWidth_eq]
    rfl
  simp only [dec_eq, high_byte_iff, NegOffset.value]
  split
  · have lessOffset : BitVec.ofInt 16 (-65535) = 1#16 := by decide
    rw [sub_eq_add_neg, BitVec.ofInt_add, word, lessOffset]
  · rw [sub_zero, word]

/-- Settles O30: LDCOEF holds the decoded words (`coefsOf`), each of them as `ofInt_dec_off65535` says. -/
theorem coefficientReadsBackDecoded : Obligations.CoefficientReadsBackDecoded := by
  unfold Obligations.CoefficientReadsBackDecoded
  rintro s t p0 p1 p2 p3 p4 p5 p6 p7 negOffset ⟨⟩
  simp [negOffset, coefsOf, ofInt_dec_off65535]

/-! INVCOEF (R150). -/

theorem exec_invcoef (s : State) :
    exec .invcoef s = .next { s with coef := none, responses := s.responses ++ [⟨.ok, none⟩] } := rfl

/-- R150: dropping a set that is not there changes nothing. -/
theorem setCoef_none_of_none {s : State} (coef : s.coef = none) : s.setCoef none = s := by
  rw [← coef]
  rfl

/-- Settles O25: the fault of a payload is O5's, the reads after it are `coefficient_reads_fault`. -/
theorem invcoefDropsCoefficients : Obligations.InvcoefDropsCoefficients := by
  unfold Obligations.InvcoefDropsCoefficients
  obtain ⟨wrongLength, -⟩ := wrongPayloadLengthFaults
  refine ⟨exec_invcoef, fun s coef => congrArg complete (setCoef_none_of_none coef),
    fun s f ms port op payload => wrongLength s f ms port (.inr <| .inr ⟨by simp [op], by simpa using payload⟩),
    fun s ms port => step_encode (i := .invcoef) port, ?_⟩
  rintro s t ⟨⟩
  exact ⟨coefficient_reads_fault rfl, exec_faulted rfl (by decide)⟩

end Sys2Proof.Machine
end

section
/-! PROOFS. The errors of a frame (spec/60_exceptions.md R170 to R173). -/

namespace Sys2Proof.Machine

/-- Settles O32: by the numbers in `Code.bits`, none of them above 6 (`code_bits_le`). -/
theorem errorCodesAreNumbered : Obligations.ErrorCodesAreNumbered := by
  unfold Obligations.ErrorCodesAreNumbered
  exact ⟨rfl, fun e => (Nat.lt_succ_of_le (code_bits_le e)).ne⟩

/-- Settles O33: a performed frame is a fault and nothing more, or an effect of which none is on `ERR`
(`perform_effect`). -/
theorem faultsArePrecise : Obligations.FaultsArePrecise := by
  unfold Obligations.FaultsArePrecise
  intro s f ms port
  obtain ⟨t, performed⟩ := perform_answers f (s.setPort ms)
  have stepped := (step_deliver port).trans performed
  rcases perform_effect performed with ⟨fault, rfl⟩ | ⟨-, i, u, v, -, effect, rfl⟩
  · exact ⟨_, _, none, stepped, rfl, fun _ => ⟨rfl, rfl⟩, fun ok => absurd ok fault⟩
  · obtain ⟨err, -, responses, -⟩ := effect.unchanged
    exact ⟨_, .ok, v, stepped, by simp [responses], fun fault => absurd rfl fault, fun _ => err⟩

/-- Settles O34: the one response of a performed frame has the code `frameCode` (`perform_responds`), which does not
depend on the moves still to come. -/
theorem firstApplicableErrorReported : Obligations.FirstApplicableErrorReported := by
  unfold Obligations.FirstApplicableErrorReported
  intro s f ms port
  obtain ⟨t, performed⟩ := perform_answers f (s.setPort ms)
  obtain ⟨-, ⟨v, responses⟩, -⟩ := perform_responds performed
  rw [frameCode_setPort] at responses
  exact ⟨t, v, (step_deliver port).trans performed, responses⟩

/-! The three loads and a COMPP (R64, R172). -/

/-- R104, R121: the multiply-accumulator on a loaded set is its formula on the decoded words. -/
theorem mac_coefsOf (k : NegOffset) (a b c d e f g h : Byte) (pr tr : BitVec 10) :
    mac (coefsOf k a b c d e f g h) pr tr =
      (dec k c d * 2 ^ 9 + decC12 k g h * tr.toNat) * pr.toNat + dec k a b * 2 ^ 19 + dec k e f * tr.toNat * 2 ^ 8 := by
  simp only [mac, coefsOf, toInt_ofInt_dec, toInt_ofInt_decC12]

/-- Whatever was in the registers before, the loads give COMPP its three inputs. -/
theorem afterMoves_load_compp (s : State) (a b c d e f g h pm pl tm tl : Byte) :
    ∃ t, afterMoves (deliveries [.ldcoef a b c d e f g h, .ldrawp pm pl, .ldrawt tm tl, .compp]) s = t ∧
      t.responses = s.responses ++ List.replicate 4 ⟨.ok, none⟩ ∧ t.err = s.err ∧
      t.pcomp = some (BitVec.ofInt 40 (mac (coefsOf s.params.negOffset a b c d e f g h) (raw pm pl) (raw tm tl))) := by
  refine ⟨_, rfl, ?_⟩
  simp only [deliveries, List.map_cons, List.map_nil, afterMoves_cons, afterMoves_nil, afterMove_ldcoef,
    afterMove_ldrawp, afterMove_ldrawt]
  rw [afterMove_compp rfl rfl rfl]
  simp

/-- Settles O48: the four frames are answered as `afterMoves_load_compp` says; the accumulator is `mac_coefsOf`, and the
40 bits of `PCOMP` hold it (`toInt_ofInt_mac`). -/
theorem loadedInputsAlwaysCompute : Obligations.LoadedInputsAlwaysCompute := by
  unfold Obligations.LoadedInputsAlwaysCompute
  intro s a b c d e f g h pm pl tm tl ms port
  obtain ⟨t, ht, responses, err, pcomp⟩ := afterMoves_load_compp s a b c d e f g h pm pl tm tl
  refine ⟨t.setPort ms, ht ▸ run_moves port, responses, err, rfl, _, pcomp, ?_⟩
  rw [toInt_ofInt_mac (coefsOf_inRange ..), mac_coefsOf]
  rfl

end Sys2Proof.Machine
end

section
/-! PROOFS. Reset and the boot (spec/70_reset_and_hazards.md R200, R203). -/

namespace Sys2Proof.Machine

/-- R200, R33: after a reset every field of the view is 0, whatever the engine held. -/
theorem status_engineReset (s : State) : status s.engineReset = 0x0000#16 := by
  have statusAtPowerOn : status State.reset = 0x0000#16 := by decide
  exact statusAtPowerOn

/-- Settles O38: `step_reset` leaves `engineReset`, whose fields are those of power-on (R39). -/
theorem resetClearsEveryRegister : Obligations.ResetClearsEveryRegister := by
  unfold Obligations.ResetClearsEveryRegister
  refine ⟨⟨rfl, rfl, rfl, rfl, rfl, rfl, rfl, status_engineReset State.reset⟩, fun s ms port => ?_⟩
  exact ⟨_, step_reset port, ⟨rfl, rfl, rfl, rfl, rfl, rfl, rfl, status_engineReset _⟩, rfl⟩

/-! Step 1 of R203: what a host did before its first compute. -/

/-- Two operations have the same frame only if they are the same (R71). -/
@[simp] theorem encode_inj {i j : Instr} : encode i = encode j ↔ i = j :=
  ⟨fun same => by simpa [decode_encode] using congrArg decode same, congrArg encode⟩

theorem bootsClear_wakeMoves (pins : List SensorPin) (w : Nat) (ms : List HostMove) (s : State) :
    bootsClear s (wakeMoves pins w ++ ms) = bootsClear s ms := by
  unfold wakeMoves
  induction pins with
  | nil => rfl
  | cons p pins ih => exact ih

/-- Steps 1 to 3 of a reading hold neither a compute nor a reset. -/
theorem bootsClear_readingSetup (valid : Bool) (pins : List SensorPin) (w k : Nat) (a b c d e f g h : Byte)
    (ms : List HostMove) (s : State) :
    bootsClear s (readingSetup valid pins w k [a, b, c, d, e, f, g, h] ++ ms) = bootsClear s ms := by
  unfold readingSetup
  rw [List.append_assoc, List.append_assoc, bootsClear_wakeMoves]
  cases valid <;> simp [triggerMoves, coefMoves, loadMoves_coefficients, bootsClear]

/-- A reading resets nothing and computes, so its boot is clear exactly if no fault was recorded. -/
theorem bootsClear_reading (valid : Bool) (pins : List SensorPin) (w k : Nat) (a b c d e f g h pm pl tm tl : Byte)
    (s : State) :
    bootsClear s (pressureReading valid pins w k [a, b, c, d, e, f, g, h] [pm, pl] [tm, tl]) =
        decide (noFaultRecorded s) ∧
      bootsClear s (temperatureReading valid pins w k [a, b, c, d, e, f, g, h] [tm, tl]) =
        decide (noFaultRecorded s) := by
  simp only [pressureReading, temperatureReading, List.append_assoc, bootsClear_readingSetup]
  constructor <;> simp [loadMoves_rawPressure, loadMoves_rawTemperature, deliveries, bootsClear]

/-! Step 1 with R64's musts. -/

theorem bootDutiesMet_iff {v : SensorView} {s : State} {ms : List HostMove} {settled : Prop}
    (clear : bootsClear s ms = decide (noFaultRecorded s)) (duties : hostDutiesMet v s ms = true ↔ settled) :
    bootDutiesMet v s ms = true ↔ s.err = .ok ∧ settled := by
  rw [bootDutiesMet, clear, Bool.and_eq_true, decide_eq_true_iff, duties]

/-- A reset is the whole of step 1, and R64's musts begin in the state it leaves. -/
theorem bootDutiesMet_reset (v : SensorView) (s : State) (ms : List HostMove) :
    bootDutiesMet v s (.reset :: ms) = hostDutiesMet v (s.setPort []).engineReset ms := rfl

/-- Settles O59: a reading is clear without a fault recorded (`bootsClear_reading`) and always after a reset
(`bootDutiesMet_reset`), and there O55, O51 and O54 hold of it, with no set there (`status_coefValid`) and `ERR` 0. -/
theorem bootMakesReadingsClear : Obligations.BootMakesReadingsClear := by
  unfold Obligations.BootMakesReadingsClear
  intro s v pins w k a b c d e f g h pm pl tm tl cs set pressure temperature
  have noSet (u : State) : (status u.engineReset).getLsbD 0 = false := status_coefValid u.engineReset
  refine ⟨fun shutdown reset => ?_, fun ms port => ?_, fun ms port => ?_⟩
  · obtain ⟨duties, -⟩ := readingsMeetHostDuties
    obtain ⟨clearPressure, clearTemperature⟩ :=
      bootsClear_reading ((status s).getLsbD 0) pins w k a b c d e f g h pm pl tm tl s
    obtain ⟨dutiesPressure, dutiesTemperature, -⟩ :=
      duties s v pins w k a b c d e f g h pm pl tm tl shutdown reset
    obtain ⟨resetPressure, resetTemperature, -⟩ :=
      duties (s.setPort []).engineReset v pins w k a b c d e f g h pm pl tm tl shutdown reset
    rw [noSet, ← bootDutiesMet_reset] at resetPressure resetTemperature
    exact ⟨bootDutiesMet_iff clearPressure dutiesPressure, bootDutiesMet_iff clearTemperature dutiesTemperature,
      resetPressure, resetTemperature⟩
  · have completes := pressureReadingCompletes (s.setPort (pressure false ++ ms)).engineReset pins w k a b c d e f g h
      pm pl tm tl ms
    rw [noSet] at completes
    obtain ⟨t, run, reading⟩ := completes rfl
    exact ⟨t, (run_succ (step_reset port) _).trans run, reading⟩
  · have completes := temperatureReadingCompletes (s.setPort (temperature false ++ ms)).engineReset pins w k
      a b c d e f g h tm tl ms
    rw [noSet] at completes
    obtain ⟨t, run, tport, err, -, coef, responses⟩ := completes rfl
    exact ⟨t, (run_succ (step_reset port) _).trans run, tport, err, coef, responses⟩

end Sys2Proof.Machine
end
